-- ==== Sys2Proof/Word.lean ====
section
/-! DEFINITION. The two widths of the engine (00_scope.md R6, R8): a word is 32 bits, a byte is 8 bits,
and a byte sequence is a finite list of bytes, element 0 first. -/

namespace Sys2Proof

/-- An unsigned integer 0 .. 2^32-1 (R8). `+` on it is the engine's `+32`, `^^^` its exclusive or. -/
abbrev Word := BitVec 32

/-- An unsigned integer 0 .. 255 (R8). -/
abbrev Byte := BitVec 8

/-- A byte sequence `b`, `b[0]` first (R8). -/
abbrev Bytes := List Byte

/-- `zeros(n)`: n bytes of value 0 (R8). -/
def zeros (n : Nat) : Bytes := List.replicate n 0

end Sys2Proof
end

