-- ==== Sys2Proof/Config.lean ====
section
/-! DEFINITION. What the spec fixes for every engine (the sizes of R6), what it leaves to the model as an
argument (NCTX, R7), and the error results and their codes (R130, D7). -/

namespace Sys2Proof

/-- The error results of a command (R130): every status but OK. -/
inductive CmdError where
  /-- Raised by INIT, INIT_KEY and HASH for a length of 0 or over 32, and by FINAL for one over 32 (R131). -/
  | invalidDigestLength
  /-- Raised by INIT_KEY and HASH for a key operand they do not take (R132). -/
  | invalidKey
  /-- Raised by HASH when its input or its output is absent (R133). -/
  | invalidArgument
  /-- Raised by UPDATE and FINAL when the context is not READY (R134). -/
  | invalidState
  /-- Raised by the decoder for a reserved command word (R135). -/
  | invalidCommand
  deriving DecidableEq, Repr

/-- The status of a command (R130). -/
inductive Status where
  | ok
  | error (e : CmdError)
  deriving DecidableEq, Repr

/-- The numeric code of a status (R130, D7). -/
def Status.code : Status → Nat
  | .ok => 0
  | .error .invalidDigestLength => 1
  | .error .invalidKey => 2
  | .error .invalidArgument => 3
  | .error .invalidState => 4
  | .error .invalidCommand => 5

namespace Config

/-- NCTX, the number of session contexts, at the spec's default (R7, D4). The context file of `State` has any
length, so only `State.reset` depends on this number (log entry 4). -/
def NCTX : Nat := 1

/-- The largest NCTX the spec admits (R7). -/
def maxNCTX : Nat := 16

/-- OUTBYTES, the longest digest (R6). -/
def OUTBYTES : Nat := 32

/-- KEYBYTES, the longest key (R6). -/
def KEYBYTES : Nat := 32

/-- BLOCKBYTES, the bytes of one block (R6). -/
def BLOCKBYTES : Nat := 64

/-- BUFBYTES, the bytes of the input buffer (R6). -/
def BUFBYTES : Nat := 128

end Config
end Sys2Proof
end

