-- ==== Sys2Proof/Syntax.lean ====
section
/-! DEFINITION. The five commands as data (30_encoding.md R60), one constructor per row of the opcode table, and
the form in which the host issues them: a command word with its out-of-word operands (R50, R53), or a reset. -/

namespace Sys2Proof

/-- A command, with its operand bytes (R60). `ctx` is the CTX field, `n` the NLEN field, `kl` the KLEN field. A
`key` of `none` is KEYP = 0, an `input` of `none` is INP = 0, `outp` is OUTP. A reserved word (R56) is no command:
the decoder refuses it. -/
inductive Instr where
  /-- INIT ctx, n (R102): start an unkeyed session. -/
  | init (ctx : Fin 16) (n : Fin 256)
  /-- INIT_KEY ctx, n, kl, key (R104): start a keyed session. -/
  | initKey (ctx : Fin 16) (n kl : Fin 256) (key : Option Bytes)
  /-- UPDATE ctx, input (R106): absorb bytes. -/
  | update (ctx : Fin 16) (input : Bytes)
  /-- FINAL ctx, n (R108): end the session and return n bytes of the digest. -/
  | final (ctx : Fin 16) (n : Fin 256)
  /-- HASH n, kl, in, out, key (R120): hash one whole message on the scratch context. -/
  | hash (n kl : Fin 256) (input : Option Bytes) (outp : Bool) (key : Option Bytes)
  deriving DecidableEq, Repr

/-- A command as the host issues it (R50): the 32-bit command word and the operand bytes that travel beside it
(R53, R39: values, fixed while the command runs). `input` is `IN[0..inlen)`, so `inlen` is its length; a word that
uses no input or no key leaves the corresponding bytes unread. -/
structure Command where
  word : Word
  input : Bytes
  key : Bytes
  deriving DecidableEq, Repr

/-- What the host can do to the engine (R168): issue a command, or give the reset event (R150). -/
inductive HostEvent where
  | command (c : Command)
  | reset
  deriving DecidableEq, Repr

end Sys2Proof
end

