-- ==== Sys2Proof/WellFormed.lean ====
section
/-! DEFINITION. When a command is one the host may issue to an engine with `nctx` contexts: the context exists
(R55), the input length fits 64 bits (R53, D29), and a present key supplies the bytes that key_length says will be
read (R60, D28). Range checks on n and kl are NOT here: the command's own rule makes them and reports an error (R52). -/

namespace Sys2Proof

/-- CTX < NCTX (R55). -/
def ctxInRange (nctx : Nat) (ctx : Fin 16) : Bool := ctx.val < nctx

/-- `inlen` is an unsigned 64-bit integer (R53). -/
def inputInRange (input : Bytes) : Bool := input.length < 2 ^ 64

/-- A present key supplies at least `kl` bytes whenever 1 ≤ kl ≤ 32 (R60); an absent one supplies none. -/
def keySupplied (kl : Fin 256) : Option Bytes → Bool
  | none => true
  | some key => kl.val = 0 || 32 < kl.val || kl.val ≤ key.length

/-- A command the host may issue to an engine with `nctx` contexts. -/
def Instr.wf (nctx : Nat) : Instr → Bool
  | .init ctx _ => ctxInRange nctx ctx
  | .initKey ctx _ kl key => ctxInRange nctx ctx && keySupplied kl key
  | .update ctx input => ctxInRange nctx ctx && inputInRange input
  | .final ctx _ => ctxInRange nctx ctx
  | .hash _ kl input _ key => inputInRange (input.getD []) && keySupplied kl key

end Sys2Proof
end

