-- ==== Sys2Proof/Decode.lean ====
section
/-! DEFINITION. The command word (30_encoding.md R51 to R56): its fields, the five rows of the opcode map, the
decoder (total on 32-bit words, a reserved word refused by name) and the encoder. -/

namespace Sys2Proof

/-- Why a word is reserved (R56). Every one of them is the status InvalidCommand (R135). -/
inductive Reserved where
  /-- OP = 0x0 or OP = 0x6 .. 0xF. -/
  | opcode
  /-- A nonzero RSV field. -/
  | rsv
  /-- A nonzero bit in a field the command does not use. -/
  | unusedField
  /-- CTX ≥ NCTX. -/
  | contextIndex
  deriving DecidableEq, Repr

/-! ### The fields of the word (R51, R52): each an unsigned integer taken as it stands. -/

/-- OP = word[3:0]. -/
def opField (w : Word) : Fin 16 := (w.extractLsb' 0 4).toFin
/-- CTX = word[7:4]. -/
def ctxField (w : Word) : Fin 16 := (w.extractLsb' 4 4).toFin
/-- NLEN = word[15:8]. -/
def nlenField (w : Word) : Fin 256 := (w.extractLsb' 8 8).toFin
/-- KLEN = word[23:16]. -/
def klenField (w : Word) : Fin 256 := (w.extractLsb' 16 8).toFin
/-- INP = word[24]. -/
def inpField (w : Word) : Bool := w.getLsbD 24
/-- OUTP = word[25]. -/
def outpField (w : Word) : Bool := w.getLsbD 25
/-- KEYP = word[26]. -/
def keypField (w : Word) : Bool := w.getLsbD 26
/-- RSV = word[31:27]. -/
def rsvField (w : Word) : Fin 32 := (w.extractLsb' 27 5).toFin

/-! ### The opcode map (R54) -/

/-- One row of the opcode map: a word `w` selects it when `w &&& mask = bits`. -/
structure OpRow where
  mnemonic : String
  bits : Word
  mask : Word
  deriving DecidableEq, Repr

def rowInit : OpRow := ⟨"INIT", 0x00000001, 0xFFFF000F⟩
def rowInitKey : OpRow := ⟨"INIT_KEY", 0x00000002, 0xFB00000F⟩
def rowUpdate : OpRow := ⟨"UPDATE", 0x00000003, 0xFFFFFF0F⟩
def rowFinal : OpRow := ⟨"FINAL", 0x00000004, 0xFFFF000F⟩
def rowHash : OpRow := ⟨"HASH", 0x00000005, 0xF80000FF⟩

/-- The five rows, in the table's order. -/
def opRows : List OpRow := [rowInit, rowInitKey, rowUpdate, rowFinal, rowHash]

/-- `(w & mask) == match` (R54). -/
def OpRow.selects (r : OpRow) (w : Word) : Bool := w &&& r.mask == r.bits

/-! ### The decoder (R55) -/

/-- An operand that travels beside the word is there exactly when its presence bit is set (R51). -/
def presentIf (p : Bool) (b : Bytes) : Option Bytes := if p then some b else none

/-- The command `i` of a word whose CTX field must name a context (R55). -/
def inContext (nctx : Nat) (w : Word) (i : Instr) : Except Reserved Instr :=
  if (ctxField w).val < nctx then .ok i else .error .contextIndex

/-- The reason of R56 for a word that selects no row. -/
def reservedReason (w : Word) : Reserved :=
  if (opField w).val = 0 ∨ 6 ≤ (opField w).val then .opcode
  else if (rsvField w).val ≠ 0 then .rsv
  else .unusedField

/-- The decoder of an engine with `nctx` contexts (R55): total on words, a reserved word refused by its reason. -/
def decode (nctx : Nat) (c : Command) : Except Reserved Instr :=
  if rowInit.selects c.word then
    inContext nctx c.word (.init (ctxField c.word) (nlenField c.word))
  else if rowInitKey.selects c.word then
    inContext nctx c.word (.initKey (ctxField c.word) (nlenField c.word) (klenField c.word)
      (presentIf (keypField c.word) c.key))
  else if rowUpdate.selects c.word then
    inContext nctx c.word (.update (ctxField c.word) c.input)
  else if rowFinal.selects c.word then
    inContext nctx c.word (.final (ctxField c.word) (nlenField c.word))
  else if rowHash.selects c.word then
    .ok (.hash (nlenField c.word) (klenField c.word) (presentIf (inpField c.word) c.input)
      (outpField c.word) (presentIf (keypField c.word) c.key))
  else .error (reservedReason c.word)

/-! ### The encoder (R55): the row's match value OR each used field shifted to its position. -/

def ctxBits (ctx : Fin 16) : Word := BitVec.ofNat 32 ctx.val <<< 4
def nlenBits (n : Fin 256) : Word := BitVec.ofNat 32 n.val <<< 8
def klenBits (kl : Fin 256) : Word := BitVec.ofNat 32 kl.val <<< 16
def inpBits (p : Bool) : Word := (BitVec.ofBool p).setWidth 32 <<< 24
def outpBits (p : Bool) : Word := (BitVec.ofBool p).setWidth 32 <<< 25
def keypBits (p : Bool) : Word := (BitVec.ofBool p).setWidth 32 <<< 26

/-- The command word of a command (R54, R55). -/
def encodeWord : Instr → Word
  | .init ctx n => rowInit.bits ||| ctxBits ctx ||| nlenBits n
  | .initKey ctx n kl key => rowInitKey.bits ||| ctxBits ctx ||| nlenBits n ||| klenBits kl ||| keypBits key.isSome
  | .update ctx _ => rowUpdate.bits ||| ctxBits ctx
  | .final ctx n => rowFinal.bits ||| ctxBits ctx ||| nlenBits n
  | .hash n kl input outp key =>
    rowHash.bits ||| nlenBits n ||| klenBits kl ||| inpBits input.isSome ||| outpBits outp ||| keypBits key.isSome

/-- The input bytes a command carries beside its word (R53). -/
def Instr.inputBytes : Instr → Bytes
  | .update _ input => input
  | .hash _ _ input _ _ => input.getD []
  | .init _ _ | .initKey _ _ _ _ | .final _ _ => []

/-- The key bytes a command carries beside its word (R53). -/
def Instr.keyBytes : Instr → Bytes
  | .initKey _ _ _ key | .hash _ _ _ _ key => key.getD []
  | .init _ _ | .update _ _ | .final _ _ => []

/-- The command as the host issues it: its word and the operands beside it, none where the word uses none. -/
def encode (i : Instr) : Command := ⟨encodeWord i, i.inputBytes, i.keyBytes⟩

/-! ### The table's words -/

/-- The word of an instruction whose low `nbits` bits are those of `w`, every bit above them 0, its operand bytes
empty: the word a row of the opcode table stands for. -/
def tableCommand (nbits w : Nat) : Command := ⟨BitVec.ofNat 32 (w % 2 ^ nbits), [], []⟩

/-- What the decoder reads from a word of the opcode table. The table's CTX field ranges over 0 .. 15, so the
decoder is taken at the largest NCTX the spec admits (R7; log entry 5). -/
def decodeTableWord (nbits w : Nat) : Option Instr :=
  (decode Config.maxNCTX (tableCommand nbits w)).toOption

end Sys2Proof
end

