-- ==== Sys2Proof/Machine/State.lean ====
section
/-! DEFINITION. The state of the engine (10_state.md) and of its host port, as plain data, and the state right after
reset (R28, R150). The engine has no program counter, no address space and no status register (R19, R37, R26). -/

namespace Sys2Proof.Machine

/-- PHASE (R17), the sequencing state of a context. -/
inductive Phase where
  | uninit
  | ready
  | finalized
  deriving DecidableEq, Repr

/-- The encoding of PHASE (R17, D3): the value 3 never occurs. -/
def Phase.code : Phase → BitVec 2
  | .uninit => 0
  | .ready => 1
  | .finalized => 2

/-- A context (R10): the storage of one hashing session. -/
@[ext] structure Context where
  /-- PHASE (R17). -/
  phase : Phase
  /-- `h[0..8)`, the chaining value (R11). -/
  h : Vector Word 8
  /-- `t[0]`, the low word of the byte counter (R12). -/
  t0 : Word
  /-- `t[1]`, the high word of the byte counter (R12). -/
  t1 : Word
  /-- `f[0]`, the last-block flag (R13). -/
  f0 : Word
  /-- `f[1]`, the last-node flag (R13). -/
  f1 : Word
  /-- `buf[0..128)`, the double buffer (R14); bytes at or beyond `buflen` stay as last written (D14). -/
  buf : Vector Byte 128
  /-- `buflen`, the number of valid bytes in `buf` (R15). -/
  buflen : Nat
  /-- `last_node` (R16); no command sets it. -/
  lastNode : Bool
  deriving DecidableEq, Repr

/-- T, the 64-bit byte counter (R12): T = t[0] + 2^32 * t[1]. -/
def Context.count (c : Context) : Nat := c.t0.toNat + 2 ^ 32 * c.t1.toNat

/-- A context after reset (R28): PHASE is UNINIT; the spec leaves the other fields unspecified, and the model gives
them zero (log entry 7, DESIGN CHOICE). -/
def Context.reset : Context where
  phase := .uninit
  h := Vector.replicate 8 0
  t0 := 0
  t1 := 0
  f0 := 0
  f1 := 0
  buf := Vector.replicate 128 0
  buflen := 0
  lastNode := false

/-- The result of a command (R26): its status and its output bytes. -/
structure Result where
  status : Status
  out : Bytes
  deriving DecidableEq, Repr

/-- The engine and its host port. -/
@[ext]
structure State where
  /-- `ctx[0] .. ctx[NCTX-1]`, the session contexts (R10): the engine's NCTX is the length of this list. -/
  ctx : List Context
  /-- SCR, the scratch context, used by HASH only (R25). -/
  scr : Context
  /-- KSTAGE, the key staging block (R22). -/
  kstage : Vector Byte 64
  /-- HOST PORT: what the host has issued and the engine has not yet taken, oldest first (R40; log entry 1). -/
  pending : List HostEvent
  /-- HOST PORT: the results handed back to the host since reset, oldest first (R26, R40; log entry 2). -/
  returned : List Result
  deriving DecidableEq, Repr

/-- What stops the machine: nothing. Every command terminates with a status and an error status stops nothing
(R138, R167), so no rule of the spec raises a fault and the type has no constructor (log entry 20). -/
inductive Fault where
  deriving DecidableEq, Repr

/-- What the model gives no meaning to. -/
inductive Refusal where
  /-- Raised by an arm of `exec` for an instruction without a meaning; safe. No arm raises it. -/
  | notModelled (mnemonic : String)
  deriving DecidableEq, Repr

/-- The engine with `nctx` contexts right after the reset event (R28, R150): every PHASE is UNINIT, KSTAGE is 64
zero bytes, no command is pending and no result is left over. -/
def State.resetWith (nctx : Nat) : State where
  ctx := List.replicate nctx Context.reset
  scr := Context.reset
  kstage := Vector.replicate 64 0
  pending := []
  returned := []

/-- The machine right after reset, at the default NCTX (R7, R28). -/
def State.reset : State := State.resetWith Config.NCTX

end Sys2Proof.Machine
end

