-- ==== Sys2Proof/Machine/Ops.lean ====
section
/-! DEFINITION. The shared operations: words read from and written to bytes (20_memory.md R32, R33), the byte moves
(R112), the byte counter (R100), the key staging block (R101, R104), the context file, and the two ways a command
ends, `reply` and `raise` (R8, R137). -/

namespace Sys2Proof.Machine

/-- What a command ends in. The engine raises no fault and refuses no command (R163). -/
abbrev Answer := Host.Outcome State Fault Refusal

/-! ### Words and bytes -/

/-- LOAD32LE(S, a) (R32): the word whose least significant byte is `S[a]`. -/
def load32le {n : Nat} (S : Vector Byte n) (a : Nat) (h : a + 3 < n) : Word :=
  S[a].setWidth 32 ||| (S[a + 1].setWidth 32 <<< 8) ||| (S[a + 2].setWidth 32 <<< 16) |||
    (S[a + 3].setWidth 32 <<< 24)

/-- STORE32LE(S, a, w) (R33): byte k of `w` goes to `S[a + k]`. -/
def store32le {n : Nat} (S : Vector Byte n) (a : Nat) (w : Word) (h : a + 3 < n) : Vector Byte n :=
  (((S.set a (w.extractLsb' 0 8)).set (a + 1) (w.extractLsb' 8 8)).set (a + 2) (w.extractLsb' 16 8)).set
    (a + 3) (w.extractLsb' 24 8)

/-! ### Byte moves (R112): all source bytes are read before any destination byte is written (R8). -/

/-- The `n` bytes `S[a .. a+n)`. -/
def readBytes {m : Nat} (S : Vector Byte m) (a n : Nat) : Bytes := (S.toList.drop a).take n

/-- `S[a .. a+len(b)) <- b`: every other byte of `S` is kept. -/
def writeBytes {m : Nat} (S : Vector Byte m) (a : Nat) (b : Bytes) : Vector Byte m :=
  Vector.ofFn fun i : Fin m => if a ≤ i.val then (b[i.val - a]?).getD S[i] else S[i]

/-- `buf[0..64)`, the block operand of COMPRESS (R14, R86). -/
def firstBlock (buf : Vector Byte 128) : Vector Byte 64 := Vector.ofFn fun i : Fin 64 => buf[i.val]

/-! ### The byte counter -/

/-- CTR_ADD(c, inc) (R100): T <- (T + inc) mod 2^64, written back as its low and high word. -/
def ctrAdd (c : Context) (inc : Nat) : Context :=
  let T := (c.count + inc) % 2 ^ 64
  { c with t0 := BitVec.ofNat 32 (T % 2 ^ 32), t1 := BitVec.ofNat 32 (T / 2 ^ 32) }

/-! ### The key staging block -/

/-- The key staging of INIT_KEY (R104): `KSTAGE[0..kl) <- key`, `KSTAGE[kl..64) <- 0`; `key` is the kl bytes read. -/
def stageKey (kstage : Vector Byte 64) (key : Bytes) : Vector Byte 64 :=
  writeBytes (writeBytes kstage 0 key) key.length (zeros (64 - key.length))

/-- ERASE() (R101): 0 is written to every one of the 64 bytes of KSTAGE. -/
def eraseKey (kstage : Vector Byte 64) : Vector Byte 64 := writeBytes kstage 0 (zeros 64)

/-! ### How a command ends -/

/-- The command ends with result `r`, handed to the host (R26). -/
def State.reply (s : State) (r : Result) : State := { s with returned := s.returned ++ [r] }

/-- `return (OK, out)` (R8). -/
def State.replyOk (s : State) (out : Bytes) : State := s.reply ⟨.ok, out⟩

/-- TAKING AN ERROR, the engine's only exceptional event (R130, R137): the command ends with status `e` and no
output bytes; nothing else changes, control goes nowhere, and there is nothing to return from (R138). -/
def State.raise (s : State) (e : CmdError) : State := s.reply ⟨.error e, []⟩

/-! ### The context file -/

/-- Run the body of a command on the context it names and put back what it leaves, or raise its error. A context
the engine does not have is InvalidCommand (R135). -/
def onContext (ctx : Fin 16) (s : State) (body : Context → Except CmdError (Context × Bytes)) : Answer :=
  match s.ctx[ctx.val]? with
  | none => .next (s.raise .invalidCommand)
  | some c =>
    match body c with
    | .error e => .next (s.raise e)
    | .ok (c', out) => .next ({ s with ctx := s.ctx.set ctx.val c' }.replyOk out)

end Sys2Proof.Machine
end

