-- ==== Sys2Proof/Machine/Compression.lean ====
section
/-! DEFINITION. The compression engine (41_compression.md): IV, SIGMA, ROTR, G, ROUND and COMPRESS, pure functions of
their operands (R88). -/

namespace Sys2Proof.Machine

/-- IV, the initialization vector (R80, K1). -/
def iv : Vector Word 8 :=
  #v[0x6A09E667, 0xBB67AE85, 0x3C6EF372, 0xA54FF53A, 0x510E527F, 0x9B05688C, 0x1F83D9AB, 0x5BE0CD19]

/-- SIGMA, the message permutation: row r, column j (R81, K2). -/
def sigma : Vector (Vector (Fin 16) 16) 10 :=
  #v[#v[0, 1, 2, 3, 4, 5, 6, 7, 8, 9, 10, 11, 12, 13, 14, 15],
     #v[14, 10, 4, 8, 9, 15, 13, 6, 1, 12, 0, 2, 11, 7, 5, 3],
     #v[11, 8, 12, 0, 5, 2, 15, 13, 10, 14, 3, 6, 7, 1, 9, 4],
     #v[7, 9, 3, 1, 13, 12, 11, 14, 2, 6, 5, 10, 4, 0, 15, 8],
     #v[9, 0, 5, 7, 2, 4, 10, 15, 14, 1, 11, 12, 6, 8, 3, 13],
     #v[2, 12, 6, 10, 0, 11, 8, 3, 4, 13, 7, 5, 15, 14, 1, 9],
     #v[12, 5, 1, 15, 14, 13, 4, 10, 0, 7, 6, 3, 9, 2, 8, 11],
     #v[13, 11, 7, 14, 12, 1, 3, 9, 5, 0, 15, 4, 8, 6, 2, 10],
     #v[6, 15, 14, 9, 11, 3, 0, 8, 12, 2, 13, 7, 1, 4, 10, 5],
     #v[10, 2, 8, 4, 7, 6, 1, 5, 15, 11, 9, 14, 3, 12, 13, 0]]

/-- ROTR(w, n) (R8, R82): right rotation of a word, 1 ≤ n ≤ 31. -/
def rotr32 (w : Word) (n : Nat) : Word := (w >>> n) ||| (w <<< (32 - n))

/-- The four words G returns. -/
structure Quad where
  a : Word
  b : Word
  c : Word
  d : Word
  deriving DecidableEq, Repr

/-- G(a, b, c, d, x, y), the quarter-round mixing operation (R83): eight steps, each on what the earlier ones
left; every addition is modulo 2^32. -/
def mixG (a b c d x y : Word) : Quad :=
  let a := a + b + x
  let d := rotr32 (d ^^^ a) 16
  let c := c + d
  let b := rotr32 (b ^^^ c) 12
  let a := a + b + y
  let d := rotr32 (d ^^^ a) 8
  let c := c + d
  let b := rotr32 (b ^^^ c) 7
  ⟨a, b, c, d⟩

/-- A slot group: the indices of the working-vector words that are a, b, c, d of one G. -/
structure Slots where
  ia : Fin 16
  ib : Fin 16
  ic : Fin 16
  id : Fin 16
  deriving DecidableEq, Repr

/-- GROUP (R84): the four columns, then the four diagonals. -/
def group : Vector Slots 8 :=
  #v[⟨0, 4, 8, 12⟩, ⟨1, 5, 9, 13⟩, ⟨2, 6, 10, 14⟩, ⟨3, 7, 11, 15⟩,
     ⟨0, 5, 10, 15⟩, ⟨1, 6, 11, 12⟩, ⟨2, 7, 8, 13⟩, ⟨3, 4, 9, 14⟩]

/-- Operation `i` of round `r` (R84): G on the slots GROUP[i], with x = m[SIGMA[r][2i]] and y = m[SIGMA[r][2i+1]]
(K3). -/
def mixStep (m : Vector Word 16) (r : Fin 10) (v : Vector Word 16) (i : Fin 8) : Vector Word 16 :=
  let s := sigma[r]
  let k := group[i]
  let q := mixG v[k.ia] v[k.ib] v[k.ic] v[k.id] m[s[2 * i.val]] m[s[2 * i.val + 1]]
  (((v.set k.ia q.a).set k.ib q.b).set k.ic q.c).set k.id q.d

/-- ROUND(v, m, r) (R84): operations 0 .. 7 in that order (K4). With ten rounds, r mod 10 = r. -/
def mixRound (m : Vector Word 16) (v : Vector Word 16) (r : Fin 10) : Vector Word 16 :=
  (List.finRange 8).foldl (mixStep m r) v

/-- The sixteen little-endian message words of a block (R86, step 1). -/
def messageWords (block : Vector Byte 64) : Vector Word 16 :=
  Vector.ofFn fun i : Fin 16 => load32le block (4 * i.val) (by omega)

/-- The working vector as COMPRESS builds it (R86, step 2). -/
def workingVector (h : Vector Word 8) (t0 t1 f0 f1 : Word) : Vector Word 16 :=
  #v[h[0], h[1], h[2], h[3], h[4], h[5], h[6], h[7],
     iv[0], iv[1], iv[2], iv[3], t0 ^^^ iv[4], t1 ^^^ iv[5], f0 ^^^ iv[6], f1 ^^^ iv[7]]

/-- COMPRESS (R86) as a function of the chaining value, the counter, the flags and the block: the new chaining
value. -/
def compress (h : Vector Word 8) (t0 t1 f0 f1 : Word) (block : Vector Byte 64) : Vector Word 8 :=
  let v := (List.finRange 10).foldl (mixRound (messageWords block)) (workingVector h t0 t1 f0 f1)
  Vector.ofFn fun i : Fin 8 => h[i.val] ^^^ v[i.val] ^^^ v[i.val + 8]

/-- COMPRESS(c, c.buf[0..64)) (R86): of the context only `h` is written. -/
def compressFirst (c : Context) : Context :=
  { c with h := compress c.h c.t0 c.t1 c.f0 c.f1 (firstBlock c.buf) }

end Sys2Proof.Machine
end

