-- ==== Sys2Proof/Machine/Flags.lean ====
section
/-! DEFINITION. The flags and PHASE (R13, R16, R17, R20): there are no condition codes. What clears and sets f[0] and
f[1], and the PHASE test of UPDATE and FINAL (R134). -/

namespace Sys2Proof.Machine

/-- A set finalization flag (R13, K5). -/
def flagSet : Word := 0xFFFFFFFF

/-- A clear finalization flag (R13). -/
def flagClear : Word := 0

/-- The flags as INIT and INIT_KEY leave them (R74): f[0], f[1] and last_node clear. -/
def clearFlags (c : Context) : Context := { c with f0 := flagClear, f1 := flagClear, lastNode := false }

/-- The flags as FINAL sets them (R108): f[0] always, f[1] only when last_node is 1. -/
def setLastBlock (c : Context) : Context :=
  { c with f0 := flagSet, f1 := if c.lastNode then flagSet else c.f1 }

/-- UPDATE and FINAL raise InvalidState unless the context is READY (R134). -/
def requireReady (c : Context) : Except CmdError Unit :=
  if c.phase = .ready then .ok () else .error .invalidState

end Sys2Proof.Machine
end

