-- ==== Sys2Proof/Machine/Operands.lean ====
section
/-! DEFINITION. The operands of the commands and the checks each command makes on them before its first write
(R131 to R133, R136): lengths, the key operand of INIT_KEY, the effective key length of HASH. -/

namespace Sys2Proof.Machine

/-- A digest_length the engine takes: 1 .. 32 (R70, R131). -/
def digestLengthOk (n : Nat) : Bool := n != 0 && n ≤ Config.OUTBYTES

/-- A key_length a keyed initialisation takes: 1 .. 32 (R70, R132). -/
def keyLengthOk (kl : Nat) : Bool := kl != 0 && kl ≤ Config.KEYBYTES

/-- The check of digest_length, made before that of the key (R72, R136). -/
def checkDigestLength (n : Nat) : Except CmdError Unit :=
  if digestLengthOk n then .ok () else .error .invalidDigestLength

/-- The error of a present key with fewer than kl bytes, 1 ≤ kl ≤ 32, against D28 and R60 (DEDUCED, log entry 8). R168
gives the command an error status; R131, R133, R134 and R135 shut out the other four, which leaves InvalidKey. -/
def shortKeyError : CmdError := .invalidKey

/-- The key bytes INIT_KEY reads, `KEY[0..kl)`, once the key is present and kl is in range (R53, R104, D28). On an
error no key byte is read (R137): only the presence, kl and the number of bytes supplied are looked at. -/
def readKey (kl : Nat) (key : Option Bytes) : Except CmdError Bytes :=
  match key with
  | none => .error .invalidKey
  | some k =>
    if keyLengthOk kl then
      if kl ≤ k.length then .ok (k.take kl) else .error shortKeyError
    else .error .invalidKey

/-- The effective key length of HASH (R120): 0 when the key is absent, whatever kl says. -/
def effectiveKeyLength (kl : Nat) (key : Option Bytes) : Nat :=
  match key with
  | none => 0
  | some _ => kl

/-- The input bytes of HASH, which must be present together with the output (R133). -/
def readInput (input : Option Bytes) (outp : Bool) : Except CmdError Bytes :=
  match input, outp with
  | some b, true => .ok b
  | some _, false => .error .invalidArgument
  | none, _ => .error .invalidArgument

end Sys2Proof.Machine
end

