-- ==== Sys2Proof/Machine/ParameterBlock.lean ====
section
/-! DEFINITION. The parameter block formatter (40_parameter_block.md): PBUILD, PSER and PINIT, general in salt and
personalisation (R75, D20). -/

namespace Sys2Proof.Machine

/-- The parameter block (R70). -/
structure ParamBlock where
  digestLength : Byte
  keyLength : Byte
  fanout : Byte
  depth : Byte
  leafLength : BitVec 32
  nodeOffset : BitVec 48
  nodeDepth : Byte
  innerLength : Byte
  salt : Vector Byte 8
  personal : Vector Byte 8
  deriving DecidableEq, Repr

/-- PBUILD(n, keyed, kl, salt, personal) (R72): the digest length is checked before the key length; `kl` is not
looked at when not keyed; the tree fields are hardwired (R71). -/
def pbuild (n : Nat) (keyed : Bool) (kl : Nat) (salt personal : Option (Vector Byte 8)) :
    Except CmdError ParamBlock :=
  if !digestLengthOk n then .error .invalidDigestLength
  else if keyed && !keyLengthOk kl then .error .invalidKey
  else .ok {
    digestLength := BitVec.ofNat 8 n
    keyLength := BitVec.ofNat 8 (if keyed then kl else 0)
    fanout := 1
    depth := 1
    leafLength := 0
    nodeOffset := 0
    nodeDepth := 0
    innerLength := 0
    salt := salt.getD (Vector.replicate 8 0)
    personal := personal.getD (Vector.replicate 8 0) }

/-- The `k` low bytes of a value, least significant first. -/
def leBytes {w : Nat} (x : BitVec w) (k : Nat) : Bytes := (List.range k).map fun i => x.extractLsb' (8 * i) 8

/-- PSER(pb) as the byte sequence the rule lists (R73). -/
def pserBytes (pb : ParamBlock) : Bytes :=
  [pb.digestLength, pb.keyLength, pb.fanout, pb.depth] ++ leBytes pb.leafLength 4 ++ leBytes pb.nodeOffset 6 ++
    [pb.nodeDepth, pb.innerLength] ++ pb.salt.toList ++ pb.personal.toList

/-- PSER(pb) (R73): the 32-byte sequence P. -/
def pser (pb : ParamBlock) : Vector Byte 32 := writeBytes (Vector.replicate 32 0) 0 (pserBytes pb)

/-- The chaining value PINIT sets: IV XOR the eight words of P (R74). -/
def paramChain (P : Vector Byte 32) : Vector Word 8 :=
  Vector.ofFn fun i : Fin 8 => iv[i.val] ^^^ load32le P (4 * i.val) (by omega)

/-- PINIT(c, P) (R74): the chaining value from P, every other field zero-filled, PHASE <- READY. -/
def pinit (c : Context) (P : Vector Byte 32) : Context :=
  clearFlags { c with
    h := paramChain P
    t0 := 0
    t1 := 0
    buf := writeBytes c.buf 0 (zeros 128)
    buflen := 0
    phase := .ready }

end Sys2Proof.Machine
end

