-- ==== Sys2Proof/Machine/Streaming.lean ====
section
/-! DEFINITION. The streaming state machine (42_state_machine.md): ABSORB, and the meanings of INIT, INIT_KEY, UPDATE
and FINAL. -/

namespace Sys2Proof.Machine

/-! ### ABSORB (R105) -/

/-- One turn of the loop that overflows the buffer, steps (a) to (d): `fill` bytes fill it to 128, the counter
advances by 64, the FIRST 64 bytes are compressed, the other 64 are shifted down. The shifted bytes stay where they
were as stale copies (D14). -/
def absorbBlock (c : Context) (fill : Bytes) : Context :=
  let c := { c with buf := writeBytes c.buf c.buflen fill, buflen := 128 }
  let c := compressFirst (ctrAdd c 64)
  { c with buf := writeBytes c.buf 0 (readBytes c.buf 64 64), buflen := 64 }

/-- Step (e): what is left fits the free buffer space and is copied in. -/
def absorbRest (c : Context) (rest : Bytes) : Context :=
  { c with buf := writeBytes c.buf c.buflen rest, buflen := c.buflen + rest.length }

/-- The absorb loop, with a bound on its turns. The overflow test is strict: data that exactly fills the buffer is
copied in. -/
def absorbLoop : Nat → Context → Bytes → Context
  | 0, c, _ => c
  | turns + 1, c, data =>
    if data.length = 0 then c
    else if 128 - c.buflen < data.length then
      absorbLoop turns (absorbBlock c (data.take (128 - c.buflen))) (data.drop (128 - c.buflen))
    else absorbRest c data

/-- ABSORB(c, data) (R105). Only the first turn can take no byte (a full buffer), so `len(data) + 1` turns always
suffice. -/
def absorb (c : Context) (data : Bytes) : Context := absorbLoop (data.length + 1) c data

/-! ### INIT (R102) -/

/-- INIT(c, n): the parameter block is built, and so every check made, before the context is written. -/
def initContext (c : Context) (n : Nat) : Except CmdError Context :=
  match pbuild n false 0 none none with
  | .error e => .error e
  | .ok pb => .ok (pinit c (pser pb))

/-- INIT ctx, n: legal in every PHASE; on OK the context is a fresh session and no bytes come out. -/
def execInit (ctx : Fin 16) (n : Fin 256) (s : State) : Answer :=
  onContext ctx s fun c => (initContext c n.val).map fun c' => (c', [])

/-! ### INIT_KEY (R104) -/

/-- A context and the key staging block beside it. -/
structure Keyed where
  context : Context
  kstage : Vector Byte 64
  deriving DecidableEq, Repr

/-- The body of INIT_KEY after its checks; `key` is `KEY[0..kl)`: the padded key block is staged, absorbed, erased. -/
def startKeyed (c : Context) (kstage : Vector Byte 64) (pb : ParamBlock) (key : Bytes) : Keyed :=
  let staged := stageKey kstage key
  { context := absorb (pinit c (pser pb)) (readBytes staged 0 64), kstage := eraseKey staged }

/-- INIT_KEY(c, n, kl, key): the digest length is checked, then the key (R136); nothing is written before both. -/
def initKeyContext (c : Context) (kstage : Vector Byte 64) (n kl : Nat) (key : Option Bytes) :
    Except CmdError Keyed :=
  match checkDigestLength n with
  | .error e => .error e
  | .ok () =>
    match readKey kl key with
    | .error e => .error e
    | .ok bytes =>
      match pbuild n true kl none none with
      | .error e => .error e
      | .ok pb => .ok (startKeyed c kstage pb bytes)

/-- INIT_KEY ctx, n, kl, key: legal in every PHASE; the erase of KSTAGE is part of the command (R101, R161). -/
def execInitKey (ctx : Fin 16) (n kl : Fin 256) (key : Option Bytes) (s : State) : Answer :=
  match s.ctx[ctx.val]? with
  | none => .next (s.raise .invalidCommand)
  | some c =>
    match initKeyContext c s.kstage n.val kl.val key with
    | .error e => .next (s.raise e)
    | .ok k => .next ({ s with ctx := s.ctx.set ctx.val k.context, kstage := k.kstage }.replyOk [])

/-! ### UPDATE (R106) -/

/-- UPDATE ctx, input: valid in READY only; an empty input is legal and changes nothing. -/
def execUpdate (ctx : Fin 16) (input : Bytes) (s : State) : Answer :=
  onContext ctx s fun c => (requireReady c).map fun _ => (absorb c input, [])

/-! ### FINAL (R108) -/

/-- The first part of FINAL: more than 64 buffered bytes are cut to the last block's. -/
def drainBlock (c : Context) : Context :=
  if 64 < c.buflen then
    let c := compressFirst (ctrAdd c 64)
    { c with buflen := c.buflen - 64, buf := writeBytes c.buf 0 (readBytes c.buf 64 (c.buflen - 64)) }
  else c

/-- The second part of FINAL: the last block is counted by its real bytes, flagged, zero-padded and compressed. -/
def lastBlock (c : Context) : Context :=
  let c := setLastBlock (ctrAdd c c.buflen)
  compressFirst { c with buf := writeBytes c.buf c.buflen (zeros (128 - c.buflen)) }

/-- DSER (R24, R109): STORE32LE of h[0], .., h[7] in that order. -/
def serializeDigest (h : Vector Word 8) : Vector Byte 32 :=
  (List.finRange 8).foldl (fun D i => store32le D (4 * i.val) h[i] (by omega)) (Vector.replicate 32 0)

/-- FINAL(c, n): the state is tested first, then the length; n = 0 is accepted and gives no bytes. -/
def finalContext (c : Context) (n : Nat) : Except CmdError (Context × Bytes) :=
  match requireReady c with
  | .error e => .error e
  | .ok () =>
    if Config.OUTBYTES < n then .error .invalidDigestLength
    else
      let c := lastBlock (drainBlock c)
      .ok ({ c with phase := .finalized }, readBytes (serializeDigest c.h) 0 n)

/-- FINAL ctx, n: returns the first n bytes of the digest; the engine does not compare n with digest_length (R156). -/
def execFinal (ctx : Fin 16) (n : Fin 256) (s : State) : Answer := onContext ctx s fun c => finalContext c n.val

end Sys2Proof.Machine
end

