-- ==== Sys2Proof/Machine/OneShot.lean ====
section
/-! DEFINITION. The one-shot command HASH (43_oneshot.md R120), on the scratch context. -/

namespace Sys2Proof.Machine

/-- The initialisation HASH picks (R120): keyed when the effective key length is not 0. An unkeyed one leaves KSTAGE
alone. -/
def hashStart (s : State) (n kl : Nat) (key : Option Bytes) : Except CmdError Keyed :=
  if effectiveKeyLength kl key = 0 then (initContext s.scr n).map fun c => ⟨c, s.kstage⟩
  else initKeyContext s.scr s.kstage n (effectiveKeyLength kl key) key

/-- HASH n, kl, in, out, key: presence is checked first, then the initialisation's checks (R136); no numbered
context is read or written; the scratch context stays as FINAL leaves it (R122, log entry 21). -/
def execHash (n kl : Fin 256) (input : Option Bytes) (outp : Bool) (key : Option Bytes) (s : State) : Answer :=
  match readInput input outp with
  | .error e => .next (s.raise e)
  | .ok bytes =>
    match hashStart s n.val kl.val key with
    | .error e => .next (s.raise e)
    | .ok k =>
      match finalContext (absorb k.context bytes) n.val with
      | .error e => .next (s.raise e)
      | .ok (c, out) => .next ({ s with scr := c, kstage := k.kstage }.replyOk out)

end Sys2Proof.Machine
end

