-- ==== Sys2Proof/Machine/Dispatch.lean ====
section
/-! DEFINITION. One arm per command. -/

namespace Sys2Proof.Machine

/-- The meaning of a command (R60: state before and command to state after, status and output bytes). -/
def exec (i : Instr) (s : State) : Host.Outcome State Fault Refusal :=
  match i with
  | .init ctx n => Sys2Proof.Machine.execInit ctx n s
  | .initKey ctx n kl key => Sys2Proof.Machine.execInitKey ctx n kl key s
  | .update ctx input => Sys2Proof.Machine.execUpdate ctx input s
  | .final ctx n => Sys2Proof.Machine.execFinal ctx n s
  | .hash n kl input outp key => Sys2Proof.Machine.execHash n kl input outp key s

end Sys2Proof.Machine
end

