-- ==== Sys2Proof/Machine/HostPort.lean ====
section
/-! DEFINITION. What the engine does with the next thing the host has issued (R40, R168): a command is decoded and
run, a reserved word is refused with InvalidCommand, a reset event resets. -/

namespace Sys2Proof.Machine

/-- A command word taken from the host: decoded for this engine's NCTX and run; a reserved word ends with status
InvalidCommand, nothing written and no operand read (R56, R135). -/
def runCommand (c : Command) (s : State) : Answer :=
  match decode s.ctx.length c with
  | .ok i => exec i s
  | .error _ => .next (s.raise .invalidCommand)

/-- The reset event (R150): every context and SCR as after reset, KSTAGE zero, no result left over. What the host
issues after the reset is still to come, so `pending` stays. -/
def resetEvent (s : State) : State := { State.resetWith s.ctx.length with pending := s.pending }

/-- The engine takes the event `e` (R168). -/
def takeEvent (e : HostEvent) (s : State) : Answer :=
  match e with
  | .command c => runCommand c s
  | .reset => .next (resetEvent s)

/-- The state with `e` as the next thing the host issues. -/
def issueNext (e : HostEvent) (s : State) : State := { s with pending := e :: s.pending }

end Sys2Proof.Machine
end

