-- ==== Sys2Proof/Machine/Step.lean ====
section
/-! DEFINITION. One step: the engine takes the oldest event the host has issued and completes it (R40, R165: one
command is one atomic step). There is no program counter and no fetch (R19, R43). -/

namespace Sys2Proof.Machine

/-- One step. With nothing issued the engine does nothing (R167: it has no end-of-run event; log entry 3). -/
def step (s : State) : Host.Outcome State Fault Refusal :=
  match s.pending with
  | [] => .next s
  | e :: rest => takeEvent e { s with pending := rest }

/-- The state whose next step runs the table's word: commands are delivered by the host, not fetched (R43), so the
word is put at the head of what the host has issued (log entry 6). -/
def State.withFetchWord (s : State) (nbits w : Nat) : State := issueNext (.command (tableCommand nbits w)) s

end Sys2Proof.Machine
end

