-- ==== Sys2Proof/Safety.lean ====
section
/-! DEFINITION. The terms claims are stated in: the invariants of R18 and R22, the reference algorithm of R111, what a
READY context holds of the stream it absorbed (R18), and when two states cannot be told apart by results (R151). -/

namespace Sys2Proof.Machine

/-! ### Invariants between commands -/

/-- R18 (a) to (c), of a context in PHASE READY. -/
def Context.ReadyInv (c : Context) : Prop :=
  c.buflen ≤ 128 ∧ c.count % 64 = 0 ∧ c.f0 = 0 ∧ c.f1 = 0 ∧ c.lastNode = false

/-- The last sentence of R18, of a context in PHASE FINALIZED. -/
def Context.FinalizedInv (c : Context) : Prop :=
  c.f0 = 0xFFFFFFFF ∧ c.f1 = 0 ∧ c.lastNode = false ∧ c.buflen ≤ 64 ∧
    ∀ i : Fin 128, c.buflen ≤ i.val → c.buf[i] = 0

/-- R18 by PHASE. Nothing is said of an UNINIT context: its fields are unspecified (R28). -/
def Context.Inv (c : Context) : Prop :=
  (c.phase = .ready → c.ReadyInv) ∧ (c.phase = .finalized → c.FinalizedInv)

/-- KSTAGE is all zero (R22). -/
def State.KeyErased (s : State) : Prop := ∀ i : Fin 64, s.kstage[i] = 0

/-- The invariant of the engine between commands: NCTX in 1 .. 16 (R7), every context and SCR as R18 says, KSTAGE
erased (R22, R161). -/
def State.Inv (s : State) : Prop :=
  1 ≤ s.ctx.length ∧ s.ctx.length ≤ 16 ∧ (∀ c ∈ s.ctx, c.Inv) ∧ s.scr.Inv ∧ s.KeyErased

/-! ### Fresh sessions -/

/-- The chaining value INIT and INIT_KEY set, in closed form (R75): only h[0] differs from IV. -/
def freshChain (n kl : Nat) : Vector Word 8 :=
  iv.set 0 (0x6A09E667 ^^^ ((0x01010000 : Word) ||| (BitVec.ofNat 32 kl <<< 8) ||| BitVec.ofNat 32 n))

/-- The context after INIT (R102): nothing absorbed. -/
def freshContext (n : Nat) : Context where
  phase := .ready
  h := freshChain n 0
  t0 := 0
  t1 := 0
  f0 := 0
  f1 := 0
  buf := Vector.replicate 128 0
  buflen := 0
  lastNode := false

/-- The context after INIT_KEY (R104): the padded key block is buffered, nothing is compressed. -/
def keyedContext (n kl : Nat) (key : Bytes) : Context :=
  { freshContext n with
    h := freshChain n kl
    buf := Vector.ofFn fun i : Fin 128 => if i.val < kl then (key[i.val]?).getD 0 else 0
    buflen := 64 }

/-! ### The reference algorithm (R111) -/

/-- The low word of a 64-bit byte counter. -/
def counterLow (T : Nat) : Word := BitVec.ofNat 32 (T % 2 ^ 64 % 2 ^ 32)

/-- The high word of a 64-bit byte counter. -/
def counterHigh (T : Nat) : Word := BitVec.ofNat 32 (T % 2 ^ 64 / 2 ^ 32)

/-- Block k+1 of a stream: its bytes 64k .. 64k+63, right-padded with zeros. -/
def streamBlock (S : Bytes) (k : Nat) : Vector Byte 64 := Vector.ofFn fun i : Fin 64 => (S[64 * k + i.val]?).getD 0

/-- h_k: the chaining value after the first k blocks of a stream, none of them the last. -/
def chainAfter (h0 : Vector Word 8) (S : Bytes) : Nat → Vector Word 8
  | 0 => h0
  | k + 1 =>
    compress (chainAfter h0 S k) (counterLow (64 * (k + 1))) (counterHigh (64 * (k + 1))) 0 0 (streamBlock S k)

/-- N = max(1, ceil(A / 64)), the number of blocks of a stream of A bytes. -/
def blockCount (A : Nat) : Nat := max 1 ((A + 63) / 64)

/-- h_N: the last block is compressed with counter A and the last-block flag set. -/
def finalChain (h0 : Vector Word 8) (S : Bytes) : Vector Word 8 :=
  compress (chainAfter h0 S (blockCount S.length - 1)) (counterLow S.length) (counterHigh S.length) 0xFFFFFFFF 0
    (streamBlock S (blockCount S.length - 1))

/-- The four bytes of a word, least significant first (R33). -/
def wordBytes (w : Word) : Bytes := [w.extractLsb' 0 8, w.extractLsb' 8 8, w.extractLsb' 16 8, w.extractLsb' 24 8]

/-- The 32 bytes STORE32LE(h[0]) ++ .. ++ STORE32LE(h[7]) (R109). -/
def digestBytes (h : Vector Word 8) : Bytes := h.toList.flatMap wordBytes

/-- The key block of INIT_KEY: the key right-padded with zeros to 64 bytes (R104). -/
def keyBlock (key : Bytes) : Bytes := key ++ zeros (64 - key.length)

/-- The 32 digest bytes of an unkeyed message at digest_length n. -/
def unkeyedDigest (n : Nat) (M : Bytes) : Bytes := digestBytes (finalChain (freshChain n 0) M)

/-- The 32 digest bytes of a message under a key at digest_length n. -/
def keyedDigest (n : Nat) (key M : Bytes) : Bytes :=
  digestBytes (finalChain (freshChain n key.length) (keyBlock key ++ M))

/-! ### What a READY context holds of the stream it absorbed -/

/-- buflen as a function of the number A of absorbed bytes (R18 (d)). -/
def bufferedOf (A : Nat) : Nat := if A ≤ 128 then A else 65 + (A - 1) % 64

/-- R18 (c) to (f): context `c` has absorbed the stream `S` since an initialisation to chaining value `h0`. -/
def Context.Holds (c : Context) (h0 : Vector Word 8) (S : Bytes) : Prop :=
  c.phase = .ready ∧ c.f0 = 0 ∧ c.f1 = 0 ∧ c.lastNode = false ∧
  c.buflen = bufferedOf S.length ∧
  c.count = (S.length - c.buflen) % 2 ^ 64 ∧
  c.h = chainAfter h0 S ((S.length - c.buflen) / 64) ∧
  ∀ i : Fin 128, i.val < c.buflen → S[S.length - c.buflen + i.val]? = some c.buf[i]

/-! ### What results can tell apart (R14, R122, R151) -/

/-- Two contexts that no result can tell apart: the same PHASE, and when READY the same h, t, f, last_node, buflen
and valid bytes. -/
def Context.Alike (c d : Context) : Prop :=
  c.phase = d.phase ∧
  (c.phase = .ready → c.h = d.h ∧ c.t0 = d.t0 ∧ c.t1 = d.t1 ∧ c.f0 = d.f0 ∧ c.f1 = d.f1 ∧
    c.lastNode = d.lastNode ∧ c.buflen = d.buflen ∧ ∀ i : Fin 128, i.val < c.buflen → c.buf[i] = d.buf[i])

/-- Two states that no result can tell apart, now or later: SCR and KSTAGE do not matter. -/
def State.Alike (s t : State) : Prop :=
  List.Forall₂ Context.Alike s.ctx t.ctx ∧ s.pending = t.pending ∧ s.returned = t.returned

/-! ### Words for statements -/

/-- The state that differs from `s` in one error result only. -/
def State.withError (s : State) (e : CmdError) : State := { s with returned := s.returned ++ [⟨.error e, []⟩] }

/-- The commands `is`, issued one after the other (R40). -/
def issued (is : List Instr) : List HostEvent := is.map fun i => .command (encode i)

/-- The state with the commands `is` issued and nothing else. -/
def State.issue (s : State) (is : List Instr) : State := { s with pending := issued is }

/-- A length that is no digest_length: zero or > 32 (R131). -/
def badDigestLength (n : Fin 256) : Bool := n.val = 0 || 32 < n.val

/-- Whether the context a command names is there and not READY. -/
def notReady (s : State) (ctx : Fin 16) : Bool :=
  match s.ctx[ctx.val]? with
  | some c => c.phase != .ready
  | none => false

end Sys2Proof.Machine

namespace Sys2Proof
open Machine

/-! ### Commands in statements -/

/-- The context a command names, if it names one (R50). -/
def Instr.names : Instr → Option Nat
  | .init ctx _ | .initKey ctx _ _ _ | .update ctx _ | .final ctx _ => some ctx.val
  | .hash _ _ _ _ _ => none

/-- A byte sequence with its bytes blanked: only its length is left. -/
def blanked (b : Bytes) : Bytes := zeros b.length

/-- A command with its operand bytes blanked: what may be looked at before any byte of KEY or IN is read (R137). -/
def Instr.blank : Instr → Instr
  | .init ctx n => .init ctx n
  | .initKey ctx n kl key => .initKey ctx n kl (key.map blanked)
  | .update ctx input => .update ctx (blanked input)
  | .final ctx n => .final ctx n
  | .hash n kl input outp key => .hash n kl (input.map blanked) outp (key.map blanked)

/-! ### Which errors apply to a command (R131 to R136) -/

/-- InvalidCommand: the context named does not exist (R135). -/
def Instr.badContext (s : State) (i : Instr) : Bool :=
  match i.names with
  | some k => s.ctx.length ≤ k
  | none => false

/-- InvalidArgument: HASH with an absent input or output (R133). -/
def Instr.badArgument : Instr → Bool
  | .hash _ _ input outp _ => input.isNone || !outp
  | .init _ _ | .initKey _ _ _ _ | .update _ _ | .final _ _ => false

/-- InvalidState: UPDATE or FINAL on a context that is not READY (R134). -/
def Instr.badState (s : State) : Instr → Bool
  | .update ctx _ | .final ctx _ => notReady s ctx
  | .init _ _ | .initKey _ _ _ _ | .hash _ _ _ _ _ => false

/-- InvalidDigestLength (R131); FINAL with n = 0 is not an error. -/
def Instr.badLength : Instr → Bool
  | .init _ n | .initKey _ n _ _ | .hash n _ _ _ _ => badDigestLength n
  | .final _ n => 32 < n.val
  | .update _ _ => false

/-- InvalidKey (R132): strict in INIT_KEY; in HASH only a present key with kl > 32. In both, a present key with fewer
bytes than a valid kl asks for (log entry 8). -/
def Instr.badKey : Instr → Bool
  | .initKey _ _ kl key => key.isNone || kl.val = 0 || 32 < kl.val || !keySupplied kl key
  | .hash _ kl _ _ key => key.isSome && 32 < kl.val || !keySupplied kl key
  | .init _ _ | .update _ _ | .final _ _ => false

/-- The first error that applies, in the order of R136. -/
def Instr.firstError (s : State) (i : Instr) : Option CmdError :=
  if i.badContext s then some .invalidCommand
  else if i.badArgument then some .invalidArgument
  else if i.badState s then some .invalidState
  else if i.badLength then some .invalidDigestLength
  else if i.badKey then some .invalidKey
  else none

end Sys2Proof
end

