-- ==== Sys2Proof/Certificates/Slice0/Obligations.lean ====
section
/-! DEFINITION. The statements for the provers. Each docstring names the rule of spec/ it rests on. -/

open Sys2Proof Sys2Proof.Machine

/-! ### Encoding -/

/-- R55: decoding an encoded well-formed command gives it back, operand bytes included. -/
def Obligations.DecodeOfEncodeIsTheCommand : Prop :=
  ∀ (nctx : Nat) (i : Instr), i.wf nctx = true → decode nctx (encode i) = .ok i

/-- R55: encoding is the inverse of decoding on the word: each word that is no reserved word has one meaning. -/
def Obligations.EncodeOfDecodedWordIsTheWord : Prop :=
  ∀ (nctx : Nat) (c : Command) (i : Instr), decode nctx c = .ok i → encodeWord i = c.word

/-- R54: the masks make the rows disjoint. -/
def Obligations.OpcodeRowsAreDisjoint : Prop :=
  ∀ w : Word, ∀ r ∈ opRows, ∀ r' ∈ opRows, r.selects w = true → r'.selects w = true → r = r'

/-- R56: which words are reserved, exactly; and a reserved word ends with InvalidCommand, writes no state and reads
no operand. -/
def Obligations.ReservedWordsExactly : Prop :=
  (∀ (nctx : Nat) (c : Command),
    (∃ r, decode nctx c = .error r) ↔
      ((opField c.word).val = 0 ∨ 6 ≤ (opField c.word).val) ∨
      (rsvField c.word).val ≠ 0 ∨
      (((opField c.word).val = 1 ∨ (opField c.word).val = 4) ∧ ((klenField c.word).val ≠ 0 ∨
        keypField c.word = true ∨ outpField c.word = true ∨ inpField c.word = true)) ∨
      ((opField c.word).val = 2 ∧ (outpField c.word = true ∨ inpField c.word = true)) ∨
      ((opField c.word).val = 3 ∧ ((nlenField c.word).val ≠ 0 ∨ (klenField c.word).val ≠ 0 ∨
        keypField c.word = true ∨ outpField c.word = true ∨ inpField c.word = true)) ∨
      ((opField c.word).val = 5 ∧ (ctxField c.word).val ≠ 0) ∨
      ((opField c.word).val ≠ 5 ∧ nctx ≤ (ctxField c.word).val)) ∧
  (∀ (s : State) (c : Command) (rest : List HostEvent) (r : Reserved),
    s.pending = .command c :: rest → decode s.ctx.length c = .error r →
      step s = .next { s with pending := rest, returned := s.returned ++ [⟨.error .invalidCommand, []⟩] })

/-- R55, worked words: sanity of the decoder on one word of each row. -/
def Obligations.WorkedWordsDecode : Prop :=
  decodeTableWord 32 0x00002001 = some (.init 0 32) ∧
  decodeTableWord 32 0x04202002 = some (.initKey 0 32 32 (some [])) ∧
  decodeTableWord 32 0x00000003 = some (.update 0 []) ∧
  decodeTableWord 32 0x00002004 = some (.final 0 32) ∧
  decodeTableWord 32 0x03002005 = some (.hash 32 0 (some []) true none) ∧
  decodeTableWord 32 0x00001031 = some (.init 3 16)

/-! ### The host port -/

/-- R40, R50: when the host's oldest event is a command whose word decodes to `i`, a step is `exec i` with that event
taken, and nothing else changed around it. (The queue of host events is the model's Transport, log entry 1.) -/
def Obligations.StepRunsTheDecodedCommand : Prop :=
  ∀ (s : State) (c : Command) (rest : List HostEvent) (i : Instr),
    s.pending = .command c :: rest → decode s.ctx.length c = .ok i → step s = exec i { s with pending := rest }

/-- R150, R28: the reset event. What the spec leaves unspecified is not stated. (That later events of the queue stay is
the model's choice, log entry 15.) -/
def Obligations.ResetEventStartsAfresh : Prop :=
  ∀ (s : State) (rest : List HostEvent), s.pending = .reset :: rest →
    ∃ t, step s = .next t ∧ t.ctx.length = s.ctx.length ∧ (∀ c ∈ t.ctx, c.phase = .uninit) ∧
      t.scr.phase = .uninit ∧ (∀ i : Fin 64, t.kstage[i] = 0) ∧ t.returned = [] ∧ t.pending = rest

/-- R28, R150: the state after reset, for every NCTX; R7: the default NCTX is 1. -/
def Obligations.StateAfterReset : Prop :=
  (∀ nctx : Nat,
    (State.resetWith nctx).ctx.length = nctx ∧ (∀ c ∈ (State.resetWith nctx).ctx, c.phase = .uninit) ∧
    (State.resetWith nctx).scr.phase = .uninit ∧ (∀ i : Fin 64, (State.resetWith nctx).kstage[i] = 0) ∧
    (State.resetWith nctx).pending = [] ∧ (State.resetWith nctx).returned = []) ∧
  State.reset = State.resetWith 1

/-- R163, R167: every command in every state completes with exactly one result and no step stops the machine. (That a
step with nothing issued goes on unchanged is the model's choice, log entry 3.) -/
def Obligations.EveryCommandReturnsOneResult : Prop :=
  (∀ (i : Instr) (s : State), ∃ t r, exec i s = .next t ∧ t.returned = s.returned ++ [r] ∧
    t.pending = s.pending ∧ t.ctx.length = s.ctx.length) ∧
  (∀ s : State, ∃ t, step s = .next t)

/-! ### Invariants -/

/-- R18, R22, R161, R7: from every state that meets the invariant, a step gives a state that meets it. -/
def Obligations.StepKeepsInvariant : Prop :=
  ∀ s t : State, s.Inv → step s = .next t → t.Inv

/-- The invariant holds after reset, for every NCTX the spec admits. -/
def Obligations.ResetMeetsInvariant : Prop :=
  ∀ nctx : Nat, 1 ≤ nctx → nctx ≤ 16 → (State.resetWith nctx).Inv

/-! ### INIT and INIT_KEY -/

/-- R102 (with the closed form R75): INIT in range leaves a fresh session in the context named, whatever it held, and
changes nothing else; out of range it raises and writes nothing. -/
def Obligations.InitStartsFreshSession : Prop :=
  ∀ (s : State) (ctx : Fin 16) (n : Fin 256), ctx.val < s.ctx.length →
    (1 ≤ n.val → n.val ≤ 32 →
      exec (.init ctx n) s =
        .next { s with ctx := s.ctx.set ctx.val (freshContext n.val), returned := s.returned ++ [⟨.ok, []⟩] }) ∧
    (n.val = 0 ∨ 32 < n.val → exec (.init ctx n) s = .next (s.withError .invalidDigestLength))

/-- R104 (with R75, R101): INIT_KEY in range buffers the padded key block, compresses nothing and leaves KSTAGE zero;
the digest length is checked before the key; on error nothing is written. -/
def Obligations.InitKeyBuffersPaddedKey : Prop :=
  ∀ (s : State) (ctx : Fin 16) (n kl : Fin 256) (key : Option Bytes), ctx.val < s.ctx.length →
    (∀ k, key = some k → 1 ≤ n.val → n.val ≤ 32 → 1 ≤ kl.val → kl.val ≤ 32 → kl.val ≤ k.length →
      exec (.initKey ctx n kl key) s =
        .next { s with
          ctx := s.ctx.set ctx.val (keyedContext n.val kl.val k)
          kstage := Vector.replicate 64 0
          returned := s.returned ++ [⟨.ok, []⟩] }) ∧
    (n.val = 0 ∨ 32 < n.val → exec (.initKey ctx n kl key) s = .next (s.withError .invalidDigestLength)) ∧
    (1 ≤ n.val → n.val ≤ 32 → key = none ∨ kl.val = 0 ∨ 32 < kl.val →
      exec (.initKey ctx n kl key) s = .next (s.withError .invalidKey))

/-- R168, R121 (the model's inference, log entry 8): a host that supplies fewer key bytes than key_length asks for gets
InvalidKey, the only error the rules leave, and an unchanged engine, from INIT_KEY and from keyed HASH. -/
def Obligations.ShortKeyIsAnError : Prop :=
  ∀ (s : State) (n kl : Fin 256) (k : Bytes), 1 ≤ n.val → n.val ≤ 32 → 1 ≤ kl.val → kl.val ≤ 32 → k.length < kl.val →
    (∀ ctx : Fin 16, ctx.val < s.ctx.length →
      exec (.initKey ctx n kl (some k)) s = .next (s.withError .invalidKey)) ∧
    (∀ M : Bytes, exec (.hash n kl (some M) true (some k)) s = .next (s.withError .invalidKey))

/-! ### UPDATE -/

/-- R105, R106: input that fits the free buffer space is copied in at `buflen`; every other byte of `buf`, and h, t, f
and last_node, are as before. An empty input changes nothing. -/
def Obligations.UpdateThatFitsIsCopiedIn : Prop :=
  ∀ (s : State) (ctx : Fin 16) (c : Context) (data : Bytes), s.ctx[ctx.val]? = some c → c.phase = .ready →
    c.buflen + data.length ≤ 128 →
      exec (.update ctx data) s =
        .next { s with
          ctx := s.ctx.set ctx.val { c with
            buf := Vector.ofFn fun i : Fin 128 =>
              if c.buflen ≤ i.val ∧ i.val < c.buflen + data.length then (data[i.val - c.buflen]?).getD 0
              else c.buf[i]
            buflen := c.buflen + data.length }
          returned := s.returned ++ [⟨.ok, []⟩] }

/-- R105: input that overflows the buffer fills it, advances the counter by 64, compresses the FIRST 64 bytes, shifts
the other 64 down (their old places keep a stale copy) and goes on with the rest of the input. -/
def Obligations.UpdateThatOverflowsCompressesFirstHalf : Prop :=
  ∀ (s : State) (ctx : Fin 16) (c : Context) (data : Bytes), s.ctx[ctx.val]? = some c → c.phase = .ready →
    c.buflen ≤ 128 → 128 < c.buflen + data.length →
      let full : Vector Byte 128 := Vector.ofFn fun i : Fin 128 =>
        if i.val < c.buflen then c.buf[i] else (data[i.val - c.buflen]?).getD 0
      let T := c.count + 64
      exec (.update ctx data) s =
        exec (.update ctx (data.drop (128 - c.buflen))) { s with
          ctx := s.ctx.set ctx.val { c with
            h := compress c.h (counterLow T) (counterHigh T) c.f0 c.f1 (Vector.ofFn fun i : Fin 64 => full[i.val])
            t0 := counterLow T
            t1 := counterHigh T
            buf := Vector.ofFn fun i : Fin 128 => if h : i.val < 64 then full[i.val + 64] else full[i]
            buflen := 64 } }

/-- R106, R18 (d), R166: on a READY context UPDATE completes for every input and keeps it READY; the number k of blocks
it compresses is 0 when the input fits and ceil((b + L - 128) / 64) otherwise; t counts 64 for each, the rest stays
buffered; f and last_node are as before. -/
def Obligations.UpdateCompletesAndCountsBlocks : Prop :=
  ∀ (s : State) (ctx : Fin 16) (c : Context) (data : Bytes), s.ctx[ctx.val]? = some c → c.phase = .ready →
    c.buflen ≤ 128 →
      let k := if data.length ≤ 128 - c.buflen then 0 else (c.buflen + data.length - 128 + 63) / 64
      ∃ d : Context,
        exec (.update ctx data) s =
          .next { s with ctx := s.ctx.set ctx.val d, returned := s.returned ++ [⟨.ok, []⟩] } ∧
        d.phase = .ready ∧ d.f0 = c.f0 ∧ d.f1 = c.f1 ∧ d.lastNode = c.lastNode ∧
        d.buflen + 64 * k = c.buflen + data.length ∧ d.count = (c.count + 64 * k) % 2 ^ 64

/-- R107, R111 (streaming equivalence): two UPDATEs leave exactly the engine state that one UPDATE with the joined
input leaves, stale bytes included. -/
def Obligations.UpdatesDependOnTheStreamOnly : Prop :=
  ∀ (s : State) (ctx : Fin 16) (c : Context) (x y : Bytes), s.ctx[ctx.val]? = some c → c.phase = .ready →
    c.buflen ≤ 128 →
      ∃ s1 s2 s3, exec (.update ctx x) s = .next s1 ∧ exec (.update ctx y) s1 = .next s2 ∧
        exec (.update ctx (x ++ y)) s = .next s3 ∧
        s2 = { s3 with returned := s3.returned ++ [⟨.ok, []⟩] }

/-! ### FINAL -/

/-- R108, R109: FINAL with at most 64 buffered bytes: the block is the valid bytes padded with zeros, counted by its
real bytes and compressed with f[0] set; n bytes of the digest come out; the context is FINALIZED. -/
def Obligations.FinalOnOneBlock : Prop :=
  ∀ (s : State) (ctx : Fin 16) (n : Fin 256) (c : Context), s.ctx[ctx.val]? = some c → c.phase = .ready →
    c.buflen ≤ 64 → n.val ≤ 32 →
      let T := c.count + c.buflen
      let f1 : Word := if c.lastNode then 0xFFFFFFFF else c.f1
      let h := compress c.h (counterLow T) (counterHigh T) 0xFFFFFFFF f1
        (Vector.ofFn fun i : Fin 64 => if i.val < c.buflen then c.buf[i.val] else 0)
      exec (.final ctx n) s =
        .next { s with
          ctx := s.ctx.set ctx.val
            { phase := .finalized, h := h, t0 := counterLow T, t1 := counterHigh T, f0 := 0xFFFFFFFF, f1 := f1
              buf := Vector.ofFn fun i : Fin 128 => if i.val < c.buflen then c.buf[i] else 0
              buflen := c.buflen, lastNode := c.lastNode }
          returned := s.returned ++ [⟨.ok, (digestBytes h).take n.val⟩] }

/-- R108, R109: FINAL with 65 to 128 buffered bytes: the first 64 are compressed as a block that is not the last, then
the other `buflen - 64` as the last block. -/
def Obligations.FinalOnTwoBlocks : Prop :=
  ∀ (s : State) (ctx : Fin 16) (n : Fin 256) (c : Context), s.ctx[ctx.val]? = some c → c.phase = .ready →
    64 < c.buflen → c.buflen ≤ 128 → n.val ≤ 32 →
      let rest : Vector Byte 64 := Vector.ofFn fun i : Fin 64 =>
        if 64 + i.val < c.buflen then c.buf[64 + i.val] else 0
      let T := c.count + c.buflen
      let f1 : Word := if c.lastNode then 0xFFFFFFFF else c.f1
      let h1 := compress c.h (counterLow (c.count + 64)) (counterHigh (c.count + 64)) c.f0 c.f1
        (Vector.ofFn fun i : Fin 64 => c.buf[i.val])
      let h := compress h1 (counterLow T) (counterHigh T) 0xFFFFFFFF f1 rest
      exec (.final ctx n) s =
        .next { s with
          ctx := s.ctx.set ctx.val
            { phase := .finalized, h := h, t0 := counterLow T, t1 := counterHigh T, f0 := 0xFFFFFFFF, f1 := f1
              buf := Vector.ofFn fun i : Fin 128 => if h : i.val < 64 then rest[i.val] else 0
              buflen := c.buflen - 64, lastNode := c.lastNode }
          returned := s.returned ++ [⟨.ok, (digestBytes h).take n.val⟩] }

/-- R109: with the session held fixed, FINAL n leaves the state FINAL 32 leaves and returns the first n bytes of what it
returns; n = 0 returns none. -/
def Obligations.FinalReturnsAPrefix : Prop :=
  ∀ (s : State) (ctx : Fin 16) (n : Fin 256) (c : Context), s.ctx[ctx.val]? = some c → c.phase = .ready →
    n.val ≤ 32 →
      ∃ (t : State) (out : Bytes), out.length = 32 ∧
        exec (.final ctx 32) s = .next { t with returned := s.returned ++ [⟨.ok, out⟩] } ∧
        exec (.final ctx n) s = .next { t with returned := s.returned ++ [⟨.ok, out.take n.val⟩] }

/-- R154: after a FINAL that succeeded, FINAL and UPDATE on the context raise InvalidState and change nothing. -/
def Obligations.SecondFinalIsRefused : Prop :=
  ∀ (s t : State) (ctx : Fin 16) (n m : Fin 256) (out x : Bytes),
    exec (.final ctx n) s = .next t → t.returned = s.returned ++ [⟨.ok, out⟩] →
      exec (.final ctx m) t = .next (t.withError .invalidState) ∧
      exec (.update ctx x) t = .next (t.withError .invalidState)

/-! ### HASH -/

/-- R120, R111: HASH returns the first n bytes of the reference digest at digest_length n, keyed exactly when the key is
present and kl ≥ 1; it leaves every numbered context alone, and KSTAGE zero when it was keyed. -/
def Obligations.HashComputesTheReference : Prop :=
  ∀ (s : State) (n kl : Fin 256) (M : Bytes) (key : Option Bytes), 1 ≤ n.val → n.val ≤ 32 →
    (key = none ∨ kl.val = 0 →
      ∃ c : Context, c.phase = .finalized ∧
        exec (.hash n kl (some M) true key) s =
          .next { s with scr := c, returned := s.returned ++ [⟨.ok, (unkeyedDigest n.val M).take n.val⟩] }) ∧
    (∀ k, key = some k → 1 ≤ kl.val → kl.val ≤ 32 → kl.val ≤ k.length →
      ∃ c : Context, c.phase = .finalized ∧
        exec (.hash n kl (some M) true key) s =
          .next { s with
            scr := c
            kstage := Vector.replicate 64 0
            returned := s.returned ++ [⟨.ok, (keyedDigest n.val (k.take kl.val) M).take n.val⟩] })

/-- R121: HASH returns what the session it composes returns on any context, and fails with the status of that session's
first command when that fails. -/
def Obligations.HashEqualsTheSessionItComposes : Prop :=
  ∀ (s : State) (ctx : Fin 16) (n kl : Fin 256) (M : Bytes) (key : Option Bytes) (first : Instr),
    ctx.val < s.ctx.length →
    first = (if key.isSome && kl.val != 0 then .initKey ctx n kl key else .init ctx n) →
    (∀ e, exec first s = .next (s.withError e) →
      exec (.hash n kl (some M) true key) s = .next (s.withError e)) ∧
    (∀ s1 s2 s3 r, exec first s = .next s1 → s1.returned = s.returned ++ [⟨.ok, []⟩] →
      exec (.update ctx M) s1 = .next s2 → exec (.final ctx n) s2 = .next s3 → s3.returned = s2.returned ++ [r] →
      ∃ t, exec (.hash n kl (some M) true key) s = .next t ∧ t.returned = s.returned ++ [r])

/-! ### Sessions -/

/-- R18 (d) to (f): ABSORB keeps what a READY context holds of the stream it absorbed. -/
def Obligations.AbsorbHoldsTheStream : Prop :=
  ∀ (c : Context) (h0 : Vector Word 8) (S data : Bytes), c.Holds h0 S → (absorb c data).Holds h0 (S ++ data)

/-- R111, unkeyed: INIT, any number of UPDATEs, FINAL, issued to the engine and run step by step, return OK each and
the first m bytes of the reference digest of the joined input. -/
def Obligations.UnkeyedSessionComputesTheReference : Prop :=
  ∀ (s : State) (ctx : Fin 16) (n m : Fin 256) (xs : List Bytes),
    ctx.val < s.ctx.length → 1 ≤ n.val → n.val ≤ 32 → m.val ≤ 32 →
      ∃ t : State,
        Host.Core.run Sys2Proof.core (xs.length + 2)
          (s.issue (.init ctx n :: (xs.map (Instr.update ctx) ++ [.final ctx m]))) = .next t ∧
        t.pending = [] ∧
        t.returned = s.returned ++ List.replicate (xs.length + 1) ⟨.ok, []⟩ ++
          [⟨.ok, (unkeyedDigest n.val xs.flatten).take m.val⟩]

/-- R111, keyed: the same for INIT_KEY; the stream begins with the padded key block, and KSTAGE is zero at the end. -/
def Obligations.KeyedSessionComputesTheReference : Prop :=
  ∀ (s : State) (ctx : Fin 16) (n kl m : Fin 256) (key : Bytes) (xs : List Bytes),
    ctx.val < s.ctx.length → 1 ≤ n.val → n.val ≤ 32 → 1 ≤ kl.val → kl.val ≤ 32 → kl.val ≤ key.length →
    m.val ≤ 32 →
      ∃ t : State,
        Host.Core.run Sys2Proof.core (xs.length + 2)
          (s.issue (.initKey ctx n kl (some key) :: (xs.map (Instr.update ctx) ++ [.final ctx m]))) = .next t ∧
        t.pending = [] ∧ t.KeyErased ∧
        t.returned = s.returned ++ List.replicate (xs.length + 1) ⟨.ok, []⟩ ++
          [⟨.ok, (keyedDigest n.val (key.take kl.val) xs.flatten).take m.val⟩]

/-- R160: after a keyed session with no message bytes, the FINALIZED context still holds the key in `buf[0..kl)`. -/
def Obligations.KeyStaysInBufAfterEmptySession : Prop :=
  ∀ (s t u : State) (ctx : Fin 16) (n kl m : Fin 256) (k : Bytes),
    1 ≤ n.val → n.val ≤ 32 → 1 ≤ kl.val → kl.val ≤ 32 → kl.val ≤ k.length → m.val ≤ 32 →
    ctx.val < s.ctx.length → exec (.initKey ctx n kl (some k)) s = .next t → exec (.final ctx m) t = .next u →
      ∃ c, u.ctx[ctx.val]? = some c ∧ c.phase = .finalized ∧ c.buflen = 64 ∧
        ∀ i : Fin 128, i.val < kl.val → some c.buf[i] = k[i.val]?

/-! ### Errors and PHASE -/

/-- R131 to R136: every command reports the first error that applies, in the fixed order, and OK when none does. (That
a key operand shorter than key_length counts as InvalidKey is the model's inference, log entry 8.) -/
def Obligations.EveryCommandReportsItsFirstError : Prop :=
  ∀ (s : State) (i : Instr),
    (∀ e, i.firstError s = some e → exec i s = .next (s.withError e)) ∧
    (i.firstError s = none → ∃ t out, exec i s = .next t ∧ t.returned = s.returned ++ [⟨.ok, out⟩])

/-- R131 to R135: which commands can end in which error at all, and with which operands. (A key shorter than
key_length: log entry 8.) -/
def Obligations.EachErrorHasItsCommands : Prop :=
  ∀ (i : Instr) (s t : State) (e : CmdError) (out : Bytes),
    exec i s = .next t → t.returned = s.returned ++ [⟨.error e, out⟩] →
      match e with
      | .invalidDigestLength =>
        ((∃ ctx n, i = .init ctx n ∧ (n.val = 0 ∨ 32 < n.val)) ∨
          (∃ ctx n kl key, i = .initKey ctx n kl key ∧ (n.val = 0 ∨ 32 < n.val)) ∨
          (∃ ctx n, i = .final ctx n ∧ 32 < n.val) ∨
          (∃ n kl input outp key, i = .hash n kl input outp key ∧ (n.val = 0 ∨ 32 < n.val)))
      | .invalidKey =>
        (∃ ctx n kl key, i = .initKey ctx n kl key ∧
          (key = none ∨ kl.val = 0 ∨ 32 < kl.val ∨ ∃ k, key = some k ∧ k.length < kl.val)) ∨
        (∃ n kl input outp k, i = .hash n kl input outp (some k) ∧ (32 < kl.val ∨ k.length < kl.val))
      | .invalidArgument => ∃ n kl input outp key, i = .hash n kl input outp key ∧ (input = none ∨ outp = false)
      | .invalidState =>
        ∃ ctx c, s.ctx[ctx.val]? = some c ∧ c.phase ≠ .ready ∧ ((∃ x, i = .update ctx x) ∨ (∃ n, i = .final ctx n))
      | .invalidCommand => ∃ k, i.names = some k ∧ s.ctx.length ≤ k

/-- R137, D28: on an error no byte of KEY or IN is read: a command that differs only in those bytes, not in their number
or presence, ends in the same error. -/
def Obligations.ErrorsReadNoOperandByte : Prop :=
  ∀ (i j : Instr) (s : State) (e : CmdError), i.blank = j.blank →
    exec i s = .next (s.withError e) → exec j s = .next (s.withError e)

/-- R137: a command that ends with an error status changes nothing and returns no bytes. -/
def Obligations.ErrorChangesNothing : Prop :=
  ∀ (i : Instr) (s t : State) (e : CmdError) (out : Bytes),
    exec i s = .next t → t.returned = s.returned ++ [⟨.error e, out⟩] → t = s.withError e

/-- R110, the PHASE table, by command: what PHASE the context named is left in, and where it stays as it was. -/
def Obligations.PhaseTransitionTable : Prop :=
  ∀ (s : State) (ctx : Fin 16) (c : Context) (n kl : Fin 256) (k x : Bytes), s.ctx[ctx.val]? = some c →
    (1 ≤ n.val ∧ n.val ≤ 32 →
      ∃ t d, exec (.init ctx n) s = .next t ∧ t.ctx = s.ctx.set ctx.val d ∧ d.phase = .ready) ∧
    (n.val = 0 ∨ 32 < n.val → ∃ t, exec (.init ctx n) s = .next t ∧ t.ctx = s.ctx) ∧
    (1 ≤ n.val ∧ n.val ≤ 32 ∧ 1 ≤ kl.val ∧ kl.val ≤ 32 ∧ kl.val ≤ k.length →
      ∃ t d, exec (.initKey ctx n kl (some k)) s = .next t ∧ t.ctx = s.ctx.set ctx.val d ∧ d.phase = .ready) ∧
    (n.val = 0 ∨ 32 < n.val ∨ kl.val = 0 ∨ 32 < kl.val →
      ∃ t, exec (.initKey ctx n kl (some k)) s = .next t ∧ t.ctx = s.ctx) ∧
    (∃ t, exec (.initKey ctx n kl none) s = .next t ∧ t.ctx = s.ctx) ∧
    (c.phase = .ready →
      ∃ t d, exec (.update ctx x) s = .next t ∧ t.ctx = s.ctx.set ctx.val d ∧ d.phase = .ready) ∧
    (c.phase ≠ .ready → exec (.update ctx x) s = .next (s.withError .invalidState)) ∧
    (c.phase = .ready → n.val ≤ 32 →
      ∃ t d, exec (.final ctx n) s = .next t ∧ t.ctx = s.ctx.set ctx.val d ∧ d.phase = .finalized) ∧
    (c.phase = .ready → 32 < n.val → exec (.final ctx n) s = .next (s.withError .invalidDigestLength)) ∧
    (c.phase ≠ .ready → exec (.final ctx n) s = .next (s.withError .invalidState))

/-- R110, R153, a whole-machine rule: only an INIT or INIT_KEY that names a context makes it READY when it was not. -/
def Obligations.OnlyInitMakesAContextReady : Prop :=
  ∀ (i : Instr) (s t : State) (j : Nat) (c d : Context),
    exec i s = .next t → s.ctx[j]? = some c → t.ctx[j]? = some d → c.phase ≠ .ready → d.phase = .ready →
      ∃ (ctx : Fin 16) (n : Fin 256), ctx.val = j ∧
        (i = .init ctx n ∨ ∃ kl key, i = .initKey ctx n kl key)

/-- R10, R29, R120, the frame of the engine: a command leaves every context it does not name, and what the host has
issued, as before; only HASH writes SCR, only INIT_KEY and HASH write KSTAGE. -/
def Obligations.CommandTouchesOnlyWhatItNames : Prop :=
  ∀ (i : Instr) (s t : State), exec i s = .next t →
    t.ctx.length = s.ctx.length ∧ t.pending = s.pending ∧
    (∀ j, i.names ≠ some j → t.ctx[j]? = s.ctx[j]?) ∧
    (i.names ≠ none → t.scr = s.scr) ∧
    ((∃ ctx n, i = .init ctx n) ∨ (∃ ctx x, i = .update ctx x) ∨ (∃ ctx n, i = .final ctx n) →
      t.kstage = s.kstage)

/-- R146: commands to different contexts commute, and HASH commutes with every command on a numbered context: the same
engine state and the same two results in either order. -/
def Obligations.CommandsToDifferentContextsCommute : Prop :=
  ∀ (s : State) (i j : Instr) (a : Nat), i.names = some a → j.names ≠ some a →
    ∃ ri rj s1 s2 s12 s21,
      exec i s = .next s1 ∧ exec j s1 = .next s12 ∧ exec j s = .next s2 ∧ exec i s2 = .next s21 ∧
      s12.ctx = s21.ctx ∧ s12.scr = s21.scr ∧ s12.kstage = s21.kstage ∧
      s12.returned = s.returned ++ [ri, rj] ∧ s21.returned = s.returned ++ [rj, ri]

/-- R151, R14, R28, R122: no result depends on an unspecified field, on a byte of `buf` that is not valid, on a
FINALIZED context's contents, on SCR or on KSTAGE: two states alike in what matters give the same results and stay
alike. -/
def Obligations.ResultsIgnoreUnspecifiedFields : Prop :=
  ∀ s s' : State, s.Alike s' → ∃ t t', step s = .next t ∧ step s' = .next t' ∧ t.Alike t'

/-! ### The internal operations -/

/-- R32: LOAD32LE is the OR of the four shifted bytes, which is the little-endian value MemRead(S, a, 4). -/
def Obligations.LoadIsLittleEndian : Prop :=
  ∀ (n : Nat) (S : Vector Byte n) (a : Nat) (h : a + 3 < n),
    load32le S a h = (S[a].setWidth 32 ||| (S[a + 1].setWidth 32 <<< 8) ||| (S[a + 2].setWidth 32 <<< 16) |||
      (S[a + 3].setWidth 32 <<< 24)) ∧
    (load32le S a h).toNat =
      S[a].toNat + S[a + 1].toNat * 2 ^ 8 + S[a + 2].toNat * 2 ^ 16 + S[a + 3].toNat * 2 ^ 24

/-- R33: STORE32LE writes byte k of the word to S[a+k], leaves every other byte, and LOAD32LE reads the word back. -/
def Obligations.StoreWritesFourBytes : Prop :=
  ∀ (n : Nat) (S : Vector Byte n) (a : Nat) (w : Word) (h : a + 3 < n),
    (store32le S a w h)[a] = w.extractLsb' 0 8 ∧ (store32le S a w h)[a + 1] = w.extractLsb' 8 8 ∧
    (store32le S a w h)[a + 2] = w.extractLsb' 16 8 ∧ (store32le S a w h)[a + 3] = w.extractLsb' 24 8 ∧
    (∀ (j : Nat) (hj : j < n), j < a ∨ a + 3 < j → (store32le S a w h)[j] = S[j]) ∧
    load32le (store32le S a w h) a h = w

/-- R100: CTR_ADD adds to the 64-bit counter modulo 2^64 and writes t only; in word form, t[0] <- t[0] +32 inc and, when
the sum is below inc, t[1] <- t[1] +32 1. -/
def Obligations.CounterAddsModulo64Bits : Prop :=
  ∀ (c : Context) (inc : Nat), inc ≤ 128 →
    (ctrAdd c inc).count = (c.count + inc) % 2 ^ 64 ∧
    ctrAdd c inc = { c with
      t0 := c.t0 + BitVec.ofNat 32 inc
      t1 := if (c.t0 + BitVec.ofNat 32 inc).toNat < inc then c.t1 + 1 else c.t1 }

/-- R82: bit i of ROTR(w, n) is bit (i + n) mod 32 of w. -/
def Obligations.RotationMovesBits : Prop :=
  ∀ (w : Word) (n i : Nat), 1 ≤ n → n ≤ 31 → i < 32 →
    (rotr32 w n).getLsbD i = w.getLsbD ((i + n) % 32) ∧ rotr32 w n = ((w >>> n) ||| (w <<< (32 - n)))

/-- R83: the eight steps of G in order, each sum taken modulo 2^32 once, each rotation a right rotation. -/
def Obligations.MixingStepsModulo32Bits : Prop :=
  ∀ a b c d x y : Word, ∃ a1 d1 c1 b1 a2 d2 c2 b2 : Word,
    a1.toNat = (a.toNat + b.toNat + x.toNat) % 2 ^ 32 ∧ d1 = (d ^^^ a1).rotateRight 16 ∧
    c1.toNat = (c.toNat + d1.toNat) % 2 ^ 32 ∧ b1 = (b ^^^ c1).rotateRight 12 ∧
    a2.toNat = (a1.toNat + b1.toNat + y.toNat) % 2 ^ 32 ∧ d2 = (d1 ^^^ a2).rotateRight 8 ∧
    c2.toNat = (c1.toNat + d2.toNat) % 2 ^ 32 ∧ b2 = (b1 ^^^ c2).rotateRight 7 ∧
    mixG a b c d x y = ⟨a2, b2, c2, d2⟩

/-- R85: the four column operations of a round commute with each other, and so do the four diagonal ones. -/
def Obligations.OperationsOfOneHalfCommute : Prop :=
  ∀ (m v : Vector Word 16) (r : Fin 10) (i j : Fin 8), (i.val < 4 ∧ j.val < 4) ∨ (4 ≤ i.val ∧ 4 ≤ j.val) →
    mixStep m r (mixStep m r v i) j = mixStep m r (mixStep m r v j) i

/-- R81: every row of SIGMA is a permutation of 0..15. -/
def Obligations.SigmaRowsArePermutations : Prop :=
  ∀ (r : Fin 10) (k : Fin 16), ∃ j : Fin 16, sigma[r][j] = k ∧ ∀ j' : Fin 16, sigma[r][j'] = k → j' = j

/-- R86: COMPRESS replaces h by h[i] ^ v[i] ^ v[i+8] after ten rounds on the vector of step 2, and writes nothing else. -/
def Obligations.CompressWritesChainOnly : Prop :=
  ∀ c : Context, ∃ m v0 v10 : Vector Word 16,
    (∀ i : Fin 16, (m[i].toNat = (c.buf[4 * i.val]).toNat + (c.buf[4 * i.val + 1]).toNat * 2 ^ 8 +
      (c.buf[4 * i.val + 2]).toNat * 2 ^ 16 + (c.buf[4 * i.val + 3]).toNat * 2 ^ 24)) ∧
    (∀ i : Fin 8, v0[i.val] = c.h[i]) ∧ (∀ i : Fin 4, v0[i.val + 8] = iv[i.val]) ∧
    v0[12] = c.t0 ^^^ iv[4] ∧ v0[13] = c.t1 ^^^ iv[5] ∧ v0[14] = c.f0 ^^^ iv[6] ∧ v0[15] = c.f1 ^^^ iv[7] ∧
    v10 = mixRound m (mixRound m (mixRound m (mixRound m (mixRound m (mixRound m (mixRound m (mixRound m
      (mixRound m (mixRound m v0 0) 1) 2) 3) 4) 5) 6) 7) 8) 9 ∧
    (∀ i : Fin 8, (compressFirst c).h[i] = c.h[i] ^^^ v10[i.val] ^^^ v10[i.val + 8]) ∧
    compressFirst c = { c with h := (compressFirst c).h }

/-- R72: PBUILD raises exactly as the rule says, the digest length first, and builds the hardwired block otherwise; kl is
not looked at when not keyed. -/
def Obligations.BuilderChecksAndHardwires : Prop :=
  ∀ (n : Fin 256) (keyed : Bool) (kl : Fin 256) (salt personal : Option (Vector Byte 8)),
    (n.val = 0 ∨ 32 < n.val → pbuild n.val keyed kl.val salt personal = .error .invalidDigestLength) ∧
    (1 ≤ n.val → n.val ≤ 32 → keyed = true → kl.val = 0 ∨ 32 < kl.val →
      pbuild n.val keyed kl.val salt personal = .error .invalidKey) ∧
    (1 ≤ n.val → n.val ≤ 32 → keyed = false ∨ (1 ≤ kl.val ∧ kl.val ≤ 32) →
      ∃ pb, pbuild n.val keyed kl.val salt personal = .ok pb ∧ pb.digestLength.toNat = n.val ∧
        pb.keyLength.toNat = (if keyed then kl.val else 0) ∧ pb.fanout = 1 ∧ pb.depth = 1 ∧ pb.leafLength = 0 ∧
        pb.nodeOffset = 0 ∧ pb.nodeDepth = 0 ∧ pb.innerLength = 0 ∧
        pb.salt = salt.getD (Vector.replicate 8 0) ∧ pb.personal = personal.getD (Vector.replicate 8 0))

/-- R73, R74: the eight little-endian words of P for a block of the builder, salt and personalisation general, and the
chaining value PINIT makes of them. -/
def Obligations.ParameterBlockWords : Prop :=
  ∀ (n : Fin 256) (keyed : Bool) (kl : Fin 256) (salt personal : Option (Vector Byte 8)) (pb : ParamBlock),
    pbuild n.val keyed kl.val salt personal = .ok pb →
      load32le (pser pb) 0 (by decide) =
        ((0x01010000 : Word) ||| (BitVec.ofNat 32 (if keyed then kl.val else 0) <<< 8) ||| BitVec.ofNat 32 n.val) ∧
      load32le (pser pb) 4 (by decide) = 0 ∧ load32le (pser pb) 8 (by decide) = 0 ∧
      load32le (pser pb) 12 (by decide) = 0 ∧
      load32le (pser pb) 16 (by decide) = load32le (salt.getD (Vector.replicate 8 0)) 0 (by decide) ∧
      load32le (pser pb) 20 (by decide) = load32le (salt.getD (Vector.replicate 8 0)) 4 (by decide) ∧
      load32le (pser pb) 24 (by decide) = load32le (personal.getD (Vector.replicate 8 0)) 0 (by decide) ∧
      load32le (pser pb) 28 (by decide) = load32le (personal.getD (Vector.replicate 8 0)) 4 (by decide) ∧
      ∀ (c : Context) (i : Fin 8), (pinit c (pser pb)).h[i] = iv[i.val] ^^^ load32le (pser pb) (4 * i.val) (by omega)

/-- R34, R109: byte j of the serialized digest is byte (j mod 4) of word h[j div 4]. -/
def Obligations.DigestBytesAreLittleEndian : Prop :=
  ∀ (h : Vector Word 8) (j : Nat) (hj : j < 32),
    (serializeDigest h)[j] = (h[j / 4]'(by omega)).extractLsb' (8 * (j % 4)) 8 ∧
    (serializeDigest h).toList = digestBytes h
end

