-- ==== Sys2Proof/Laws/State.lean ====
section
/-! SUPPORT. One lemma per field per update of State and Context, true by rfl, so that no later proof unfolds a record
update. -/

namespace Sys2Proof.Machine

/-! ### reply and raise write `returned` only -/

@[simp] theorem State.reply_ctx (s : State) (r : Result) : (s.reply r).ctx = s.ctx := rfl
@[simp] theorem State.reply_scr (s : State) (r : Result) : (s.reply r).scr = s.scr := rfl
@[simp] theorem State.reply_kstage (s : State) (r : Result) : (s.reply r).kstage = s.kstage := rfl
@[simp] theorem State.reply_pending (s : State) (r : Result) : (s.reply r).pending = s.pending := rfl
@[simp] theorem State.reply_returned (s : State) (r : Result) : (s.reply r).returned = s.returned ++ [r] := rfl
@[simp] theorem State.replyOk_ctx (s : State) (b : Bytes) : (s.replyOk b).ctx = s.ctx := rfl
@[simp] theorem State.replyOk_scr (s : State) (b : Bytes) : (s.replyOk b).scr = s.scr := rfl
@[simp] theorem State.replyOk_kstage (s : State) (b : Bytes) : (s.replyOk b).kstage = s.kstage := rfl
@[simp] theorem State.replyOk_pending (s : State) (b : Bytes) : (s.replyOk b).pending = s.pending := rfl
@[simp] theorem State.replyOk_returned (s : State) (b : Bytes) :
    (s.replyOk b).returned = s.returned ++ [⟨.ok, b⟩] := rfl
@[simp] theorem State.raise_ctx (s : State) (e : CmdError) : (s.raise e).ctx = s.ctx := rfl
@[simp] theorem State.raise_scr (s : State) (e : CmdError) : (s.raise e).scr = s.scr := rfl
@[simp] theorem State.raise_kstage (s : State) (e : CmdError) : (s.raise e).kstage = s.kstage := rfl
@[simp] theorem State.raise_pending (s : State) (e : CmdError) : (s.raise e).pending = s.pending := rfl
@[simp] theorem State.raise_returned (s : State) (e : CmdError) :
    (s.raise e).returned = s.returned ++ [⟨.error e, []⟩] := rfl

/-! ### the reset event -/

@[simp] theorem resetEvent_ctx (s : State) : (resetEvent s).ctx = List.replicate s.ctx.length Context.reset := rfl
@[simp] theorem resetEvent_scr (s : State) : (resetEvent s).scr = Context.reset := rfl
@[simp] theorem resetEvent_kstage (s : State) : (resetEvent s).kstage = Vector.replicate 64 0 := rfl
@[simp] theorem resetEvent_pending (s : State) : (resetEvent s).pending = s.pending := rfl
@[simp] theorem resetEvent_returned (s : State) : (resetEvent s).returned = [] := rfl

/-! ### CTR_ADD writes t only -/

@[simp] theorem ctrAdd_phase (c : Context) (k : Nat) : (ctrAdd c k).phase = c.phase := rfl
@[simp] theorem ctrAdd_h (c : Context) (k : Nat) : (ctrAdd c k).h = c.h := rfl
@[simp] theorem ctrAdd_f0 (c : Context) (k : Nat) : (ctrAdd c k).f0 = c.f0 := rfl
@[simp] theorem ctrAdd_f1 (c : Context) (k : Nat) : (ctrAdd c k).f1 = c.f1 := rfl
@[simp] theorem ctrAdd_buf (c : Context) (k : Nat) : (ctrAdd c k).buf = c.buf := rfl
@[simp] theorem ctrAdd_buflen (c : Context) (k : Nat) : (ctrAdd c k).buflen = c.buflen := rfl
@[simp] theorem ctrAdd_lastNode (c : Context) (k : Nat) : (ctrAdd c k).lastNode = c.lastNode := rfl

/-! ### COMPRESS writes h only (R86) -/

@[simp] theorem compressFirst_phase (c : Context) : (compressFirst c).phase = c.phase := rfl
@[simp] theorem compressFirst_t0 (c : Context) : (compressFirst c).t0 = c.t0 := rfl
@[simp] theorem compressFirst_t1 (c : Context) : (compressFirst c).t1 = c.t1 := rfl
@[simp] theorem compressFirst_f0 (c : Context) : (compressFirst c).f0 = c.f0 := rfl
@[simp] theorem compressFirst_f1 (c : Context) : (compressFirst c).f1 = c.f1 := rfl
@[simp] theorem compressFirst_buf (c : Context) : (compressFirst c).buf = c.buf := rfl
@[simp] theorem compressFirst_buflen (c : Context) : (compressFirst c).buflen = c.buflen := rfl
@[simp] theorem compressFirst_lastNode (c : Context) : (compressFirst c).lastNode = c.lastNode := rfl
@[simp] theorem compressFirst_count (c : Context) : (compressFirst c).count = c.count := rfl
theorem compressFirst_h (c : Context) :
    (compressFirst c).h = compress c.h c.t0 c.t1 c.f0 c.f1 (firstBlock c.buf) := rfl

/-! ### the flags -/

@[simp] theorem setLastBlock_phase (c : Context) : (setLastBlock c).phase = c.phase := rfl
@[simp] theorem setLastBlock_h (c : Context) : (setLastBlock c).h = c.h := rfl
@[simp] theorem setLastBlock_t0 (c : Context) : (setLastBlock c).t0 = c.t0 := rfl
@[simp] theorem setLastBlock_t1 (c : Context) : (setLastBlock c).t1 = c.t1 := rfl
@[simp] theorem setLastBlock_buf (c : Context) : (setLastBlock c).buf = c.buf := rfl
@[simp] theorem setLastBlock_buflen (c : Context) : (setLastBlock c).buflen = c.buflen := rfl
@[simp] theorem setLastBlock_lastNode (c : Context) : (setLastBlock c).lastNode = c.lastNode := rfl
@[simp] theorem setLastBlock_f0 (c : Context) : (setLastBlock c).f0 = flagSet := rfl
@[simp] theorem setLastBlock_f1 (c : Context) : (setLastBlock c).f1 = if c.lastNode then flagSet else c.f1 := rfl

/-! ### PINIT -/

@[simp] theorem pinit_phase (c : Context) (P : Vector Byte 32) : (pinit c P).phase = .ready := rfl
@[simp] theorem pinit_h (c : Context) (P : Vector Byte 32) : (pinit c P).h = paramChain P := rfl
@[simp] theorem pinit_t0 (c : Context) (P : Vector Byte 32) : (pinit c P).t0 = 0 := rfl
@[simp] theorem pinit_t1 (c : Context) (P : Vector Byte 32) : (pinit c P).t1 = 0 := rfl
@[simp] theorem pinit_f0 (c : Context) (P : Vector Byte 32) : (pinit c P).f0 = 0 := rfl
@[simp] theorem pinit_f1 (c : Context) (P : Vector Byte 32) : (pinit c P).f1 = 0 := rfl
@[simp] theorem pinit_buflen (c : Context) (P : Vector Byte 32) : (pinit c P).buflen = 0 := rfl
@[simp] theorem pinit_lastNode (c : Context) (P : Vector Byte 32) : (pinit c P).lastNode = false := rfl

/-! ### the turns of ABSORB -/

@[simp] theorem absorbBlock_phase (c : Context) (b : Bytes) : (absorbBlock c b).phase = c.phase := rfl
@[simp] theorem absorbBlock_f0 (c : Context) (b : Bytes) : (absorbBlock c b).f0 = c.f0 := rfl
@[simp] theorem absorbBlock_f1 (c : Context) (b : Bytes) : (absorbBlock c b).f1 = c.f1 := rfl
@[simp] theorem absorbBlock_lastNode (c : Context) (b : Bytes) : (absorbBlock c b).lastNode = c.lastNode := rfl
@[simp] theorem absorbBlock_buflen (c : Context) (b : Bytes) : (absorbBlock c b).buflen = 64 := rfl
@[simp] theorem absorbBlock_t0 (c : Context) (b : Bytes) : (absorbBlock c b).t0 = (ctrAdd c 64).t0 := by
  simp [absorbBlock, ctrAdd, Context.count, compressFirst]
@[simp] theorem absorbBlock_t1 (c : Context) (b : Bytes) : (absorbBlock c b).t1 = (ctrAdd c 64).t1 := by
  simp [absorbBlock, ctrAdd, Context.count, compressFirst]
@[simp] theorem absorbBlock_count (c : Context) (b : Bytes) : (absorbBlock c b).count = (ctrAdd c 64).count := by
  simp [absorbBlock, ctrAdd, Context.count, compressFirst]
theorem absorbBlock_h (c : Context) (b : Bytes) : (absorbBlock c b).h =
    compress c.h (ctrAdd c 64).t0 (ctrAdd c 64).t1 c.f0 c.f1 (firstBlock (writeBytes c.buf c.buflen b)) := by
  simp [absorbBlock, ctrAdd, Context.count, compressFirst]
theorem absorbBlock_buf (c : Context) (b : Bytes) : (absorbBlock c b).buf =
    writeBytes (writeBytes c.buf c.buflen b) 0 (readBytes (writeBytes c.buf c.buflen b) 64 64) := rfl
@[simp] theorem absorbRest_phase (c : Context) (b : Bytes) : (absorbRest c b).phase = c.phase := by
  unfold absorbRest; rfl
@[simp] theorem absorbRest_h (c : Context) (b : Bytes) : (absorbRest c b).h = c.h := by
  unfold absorbRest; rfl
@[simp] theorem absorbRest_t0 (c : Context) (b : Bytes) : (absorbRest c b).t0 = c.t0 := by
  unfold absorbRest; rfl
@[simp] theorem absorbRest_t1 (c : Context) (b : Bytes) : (absorbRest c b).t1 = c.t1 := by
  unfold absorbRest; rfl
@[simp] theorem absorbRest_count (c : Context) (b : Bytes) : (absorbRest c b).count = c.count := by
  simp [absorbRest, Context.count]
@[simp] theorem absorbRest_f0 (c : Context) (b : Bytes) : (absorbRest c b).f0 = c.f0 := by
  unfold absorbRest; rfl
@[simp] theorem absorbRest_f1 (c : Context) (b : Bytes) : (absorbRest c b).f1 = c.f1 := by
  unfold absorbRest; rfl
@[simp] theorem absorbRest_lastNode (c : Context) (b : Bytes) : (absorbRest c b).lastNode = c.lastNode := by
  unfold absorbRest; rfl
@[simp] theorem absorbRest_buflen (c : Context) (b : Bytes) : (absorbRest c b).buflen = c.buflen + b.length := by
  unfold absorbRest; rfl
@[simp] theorem absorbRest_buf (c : Context) (b : Bytes) :
    (absorbRest c b).buf = writeBytes c.buf c.buflen b := by
  unfold absorbRest; rfl

/-! ### the last part of FINAL -/

@[simp] theorem lastBlock_phase (c : Context) : (lastBlock c).phase = c.phase := rfl
@[simp] theorem lastBlock_t0 (c : Context) : (lastBlock c).t0 = (ctrAdd c c.buflen).t0 := rfl
@[simp] theorem lastBlock_t1 (c : Context) : (lastBlock c).t1 = (ctrAdd c c.buflen).t1 := rfl
@[simp] theorem lastBlock_count (c : Context) : (lastBlock c).count = (ctrAdd c c.buflen).count := rfl
@[simp] theorem lastBlock_f0 (c : Context) : (lastBlock c).f0 = flagSet := rfl
@[simp] theorem lastBlock_f1 (c : Context) : (lastBlock c).f1 = if c.lastNode then flagSet else c.f1 := rfl
@[simp] theorem lastBlock_lastNode (c : Context) : (lastBlock c).lastNode = c.lastNode := rfl
@[simp] theorem lastBlock_buflen (c : Context) : (lastBlock c).buflen = c.buflen := rfl
@[simp] theorem lastBlock_buf (c : Context) :
    (lastBlock c).buf = writeBytes c.buf c.buflen (zeros (128 - c.buflen)) := rfl
theorem lastBlock_h (c : Context) : (lastBlock c).h =
    compress c.h (ctrAdd c c.buflen).t0 (ctrAdd c c.buflen).t1 flagSet (if c.lastNode then flagSet else c.f1)
      (firstBlock (writeBytes c.buf c.buflen (zeros (128 - c.buflen)))) := rfl

end Sys2Proof.Machine
end

