-- ==== Sys2Proof/Laws/Counter.lean ====
section
/-! SUPPORT. The laws of the byte counter T and CTR_ADD. -/

namespace Sys2Proof.Machine

/-- T is a 64-bit value. -/
theorem Context.count_lt (c : Context) : c.count < 2 ^ 64 := by
  have h0 := c.t0.isLt
  have h1 := c.t1.isLt
  unfold Context.count
  omega

/-- CTR_ADD wraps modulo 2^64. -/
@[simp] theorem count_ctrAdd (c : Context) (k : Nat) : (ctrAdd c k).count = (c.count + k) % 2 ^ 64 := by
  have h : (c.count + k) % 2 ^ 64 < 2 ^ 64 := Nat.mod_lt _ (by decide)
  simp only [ctrAdd, Context.count, BitVec.toNat_ofNat] at h ⊢
  omega

/-- The words of the counter after CTR_ADD are those of the 64-bit sum. -/
theorem ctrAdd_t0 (c : Context) (k : Nat) : (ctrAdd c k).t0 = counterLow (c.count + k) := rfl
theorem ctrAdd_t1 (c : Context) (k : Nat) : (ctrAdd c k).t1 = counterHigh (c.count + k) := rfl

/-- The counter words depend on the counter modulo 2^64 only. -/
theorem counterLow_congr {T U : Nat} (h : T % 2 ^ 64 = U % 2 ^ 64) : counterLow T = counterLow U := by
  simp only [counterLow, h]
theorem counterHigh_congr {T U : Nat} (h : T % 2 ^ 64 = U % 2 ^ 64) : counterHigh T = counterHigh U := by
  simp only [counterHigh, h]

end Sys2Proof.Machine
end

