-- ==== Sys2Proof/Laws/Bytes.lean ====
section
/-! SUPPORT. The laws of the byte moves: a read after a write gives the bytes written, a write leaves every other
byte alone. -/

namespace Sys2Proof.Machine

@[simp] theorem zeros_length (n : Nat) : (zeros n).length = n := by simp [zeros]

theorem zeros_getElem? (n k : Nat) : (zeros n)[k]? = if k < n then some 0 else none := by
  simp [zeros, List.getElem?_replicate]

@[simp] theorem zeros_getD (n k : Nat) : ((zeros n)[k]?).getD (0 : Byte) = 0 := by
  rw [zeros_getElem?]; split <;> rfl

/-- Every byte after `S[a .. a+len(b)) <- b`. -/
theorem getElem_writeBytes {m : Nat} (S : Vector Byte m) (a : Nat) (b : Bytes) (i : Nat) (hi : i < m) :
    (writeBytes S a b)[i] = if a ≤ i then (b[i - a]?).getD S[i] else S[i] := by
  simp [writeBytes]

/-- A byte inside the written range. -/
theorem getElem_writeBytes_in {m : Nat} (S : Vector Byte m) (a : Nat) (b : Bytes) (i : Nat) (hi : i < m)
    (ha : a ≤ i) (hb : i - a < b.length) : (writeBytes S a b)[i] = b[i - a] := by
  simp [getElem_writeBytes, ha, hb]

/-- A byte outside the written range is kept. -/
theorem getElem_writeBytes_out {m : Nat} (S : Vector Byte m) (a : Nat) (b : Bytes) (i : Nat) (hi : i < m)
    (h : i < a ∨ a + b.length ≤ i) : (writeBytes S a b)[i] = S[i] := by
  rw [getElem_writeBytes]
  split
  · have : b.length ≤ i - a := by omega
    simp [List.getElem?_eq_none this]
  · rfl

@[simp] theorem writeBytes_nil {m : Nat} (S : Vector Byte m) (a : Nat) : writeBytes S a [] = S := by
  ext i hi; simp [getElem_writeBytes]

/-- Two adjacent writes are one write. -/
theorem writeBytes_append {m : Nat} (S : Vector Byte m) (a : Nat) (b b' : Bytes) :
    writeBytes (writeBytes S a b) (a + b.length) b' = writeBytes S a (b ++ b') := by
  ext i hi
  simp only [getElem_writeBytes]
  by_cases h1 : a + b.length ≤ i
  · have h2 : a ≤ i := by omega
    have h3 : b.length ≤ i - a := by omega
    simp [h1, h2, List.getElem?_append_right h3, List.getElem?_eq_none h3, Nat.sub_sub]
  · by_cases h2 : a ≤ i
    · have h3 : i - a < b.length := by omega
      simp [h1, h2, List.getElem?_append_left h3]
    · simp [h1, h2]

/-- A write of as many zeros as the space holds gives the zero space. -/
theorem writeBytes_zeros {m : Nat} (S : Vector Byte m) : writeBytes S 0 (zeros m) = Vector.replicate m 0 := by
  apply Vector.ext
  intro i hi
  rw [getElem_writeBytes_in _ _ _ _ hi (by omega) (by simpa using hi)]
  simp [zeros]

/-- The k-th byte of `S[a .. a+n)`. -/
theorem getElem?_readBytes {m : Nat} (S : Vector Byte m) (a n k : Nat) :
    (readBytes S a n)[k]? = if k < n then S[a + k]? else none := by
  unfold readBytes
  rw [List.getElem?_take]
  split
  · simp [List.getElem?_drop, Vector.getElem?_toList]
  · rfl

@[simp] theorem readBytes_length {m : Nat} (S : Vector Byte m) (a n : Nat) :
    (readBytes S a n).length = min n (m - a) := by simp [readBytes]

/-- The whole of a space. -/
theorem readBytes_all {m : Nat} (S : Vector Byte m) : readBytes S 0 m = S.toList := by
  simp [readBytes]

/-- Every byte after a shift-down `buf[0..r) <- buf[64..64+r)` (R112, moves 2 and 3). -/
theorem getElem_shiftDown (S : Vector Byte 128) (r i : Nat) (hr : r ≤ 64) (hi : i < 128) :
    (writeBytes S 0 (readBytes S 64 r))[i] = if h : i < r then S[64 + i] else S[i] := by
  split
  · rename_i h
    have hl : i - 0 < (readBytes S 64 r).length := by rw [readBytes_length]; omega
    have hg : (readBytes S 64 r)[i]? = some S[64 + i] := by
      rw [getElem?_readBytes, if_pos h, Vector.getElem?_eq_getElem (by omega)]
    rw [getElem_writeBytes_in _ _ _ _ hi (Nat.zero_le i) hl]
    exact (List.getElem?_eq_some_iff.1 hg).2
  · exact getElem_writeBytes_out _ _ _ _ hi (Or.inr (by rw [readBytes_length]; omega))

@[simp] theorem getElem_firstBlock (buf : Vector Byte 128) (i : Nat) (hi : i < 64) :
    (firstBlock buf)[i] = buf[i] := by simp [firstBlock]

/-- Every byte after STORE32LE (R33). -/
theorem getElem_store32le {n : Nat} (S : Vector Byte n) (a : Nat) (w : Word) (h : a + 3 < n) (j : Nat) (hj : j < n) :
    (store32le S a w h)[j] = if a ≤ j ∧ j ≤ a + 3 then w.extractLsb' (8 * (j - a)) 8 else S[j] := by
  unfold store32le
  rw [Vector.getElem_set, Vector.getElem_set, Vector.getElem_set, Vector.getElem_set]
  by_cases h0 : j = a
  · subst h0; simp
  by_cases h1 : j = a + 1
  · subst h1; simp
  by_cases h2 : j = a + 2
  · subst h2; simp
  by_cases h3 : j = a + 3
  · subst h3; simp
  rw [if_neg (by omega), if_neg (by omega), if_neg (by omega), if_neg (by omega), if_neg (by omega)]

end Sys2Proof.Machine
end

