-- ==== Sys2Proof/Laws/Formatter.lean ====
section
/-! SUPPORT. The laws of the parameter block formatter, up to the closed form R75. -/

namespace Sys2Proof.Machine

/-- The block of a command: no salt, no personalisation (R75). -/
abbrev plainBlock (n kl : Byte) : ParamBlock :=
  ⟨n, kl, 1, 1, 0, 0, 0, 0, Vector.replicate 8 0, Vector.replicate 8 0⟩

/-- PBUILD answers a block exactly when both lengths are in range. -/
theorem pbuild_ok (n kl : Nat) (keyed : Bool) (hn : digestLengthOk n = true)
    (hk : keyed = true → keyLengthOk kl = true) :
    pbuild n keyed kl none none =
      .ok (plainBlock (BitVec.ofNat 8 n) (BitVec.ofNat 8 (if keyed then kl else 0))) := by
  cases keyed <;> simp_all [pbuild]

theorem digestLengthOk_iff (n : Nat) : digestLengthOk n = true ↔ 1 ≤ n ∧ n ≤ 32 := by
  simp only [digestLengthOk, Bool.and_eq_true, bne_iff_ne, ne_eq, decide_eq_true_eq]
  simp only [Config.OUTBYTES]
  omega

theorem keyLengthOk_iff (kl : Nat) : keyLengthOk kl = true ↔ 1 ≤ kl ∧ kl ≤ 32 := by
  simp only [keyLengthOk, Bool.and_eq_true, bne_iff_ne, ne_eq, decide_eq_true_eq]
  simp only [Config.KEYBYTES]
  omega

/-- The bytes of P of an unsalted block. -/
theorem getElem_pser_plain (n kl : Byte) (i : Nat) (hi : i < 32) :
    (pser (plainBlock n kl))[i] = if i = 0 then n else if i = 1 then kl else if i ≤ 3 then 1 else 0 := by
  have hb : pserBytes (plainBlock n kl) = [n, kl, 1, 1] ++ zeros 28 := by
    simp [pserBytes, leBytes, zeros, List.range_succ]
  rw [pser, hb, getElem_writeBytes_in _ _ _ _ hi (by omega) (by simp; omega)]
  match i, hi with
  | 0, _ => rfl
  | 1, _ => rfl
  | 2, _ => rfl
  | 3, _ => rfl
  | k + 4, hk =>
    have h : ∀ m j (hj : j < (zeros m).length), (zeros m)[j] = 0 := fun m j hj => List.getElem_replicate _
    simpa using h 28 k _

/-- The first word of P of an unsalted block. -/
theorem pser_word0 (n kl : Byte) :
    load32le (pser (plainBlock n kl)) 0 (by decide) =
      (0x01010000 : Word) ||| (kl.setWidth 32 <<< 8) ||| n.setWidth 32 := by
  have h : (0x01010000 : Word) = (1 : Byte).setWidth 32 <<< 16 ||| (1 : Byte).setWidth 32 <<< 24 := by decide
  rw [load32le, h]
  simp only [getElem_pser_plain]
  simp only [Nat.zero_add, reduceIte, Nat.reduceEqDiff, Nat.reduceLeDiff]
  ac_rfl

/-- The other words of P of an unsalted block are zero. -/
theorem pser_word_succ (n kl : Byte) (j : Nat) (hj : 4 * (j + 1) + 3 < 32) :
    load32le (pser (plainBlock n kl)) (4 * (j + 1)) hj = 0 := by
  have h : ∀ k (hk : k < 32), 4 ≤ k → (pser (plainBlock n kl))[k] = 0 := by
    intro k hk h4
    rw [getElem_pser_plain, if_neg (by omega), if_neg (by omega), if_neg (by omega)]
  rw [load32le, h _ _ (by omega), h _ _ (by omega), h _ _ (by omega), h _ _ (by omega)]
  decide

theorem setWidth_ofNat8 (n : Nat) (h : n < 256) : (BitVec.ofNat 8 n).setWidth 32 = BitVec.ofNat 32 n := by
  apply BitVec.eq_of_toNat_eq
  simp only [BitVec.toNat_setWidth, BitVec.toNat_ofNat]
  omega

/-- R75: the chaining value of a session without salt and personalisation. -/
theorem paramChain_closed (n kl : Nat) (hn : n < 256) (hk : kl < 256) :
    paramChain (pser (plainBlock (BitVec.ofNat 8 n) (BitVec.ofNat 8 kl))) = freshChain n kl := by
  apply Vector.ext
  intro i hi
  rw [paramChain, Vector.getElem_ofFn, freshChain, Vector.getElem_set]
  cases i with
  | zero =>
    simp only [Nat.mul_zero, reduceIte, pser_word0, setWidth_ofNat8 n hn, setWidth_ofNat8 kl hk]
    rfl
  | succ j =>
    rw [pser_word_succ]
    simp

/-- PINIT zero-fills the whole buffer. -/
@[simp] theorem pinit_buf (c : Context) (P : Vector Byte 32) : (pinit c P).buf = Vector.replicate 128 0 :=
  writeBytes_zeros c.buf

/-- PINIT overwrites every field: what the context held before leaves no trace (R151, R153). -/
theorem pinit_forgets (c d : Context) (P : Vector Byte 32) : pinit c P = pinit d P := by
  have hc := pinit_buf c P
  have hd := pinit_buf d P
  simp only [pinit, clearFlags] at hc hd ⊢
  rw [hc, hd]

/-- INIT with a digest length in range leaves the fresh context. -/
theorem initContext_ok (c : Context) (n : Nat) (h1 : 1 ≤ n) (h2 : n ≤ 32) :
    initContext c n = .ok (freshContext n) := by
  have hp := pbuild_ok n 0 false ((digestLengthOk_iff n).2 ⟨h1, h2⟩) (by simp)
  have hc := paramChain_closed n 0 (by omega) (by omega)
  simp only [initContext, hp]
  congr 1
  have hb := writeBytes_zeros c.buf
  simp only [pinit, clearFlags, freshContext, flagClear, hb]
  exact congrArg (fun x => Context.mk Phase.ready x 0 0 0 0 (Vector.replicate 128 0) 0 false) hc

/-- INIT with a digest length out of range raises, whatever the context. -/
theorem initContext_error (c : Context) (n : Nat) (h : n = 0 ∨ 32 < n) :
    initContext c n = .error .invalidDigestLength := by
  have hn : digestLengthOk n = false := by
    rw [← Bool.not_eq_true, digestLengthOk_iff]; omega
  simp [initContext, pbuild, hn]

end Sys2Proof.Machine
end

