-- ==== Sys2Proof/Laws/Absorb.lean ====
section
/-! SUPPORT. The laws of ABSORB: its loop has turns enough, its three cases, the induction over its turns, what it
leaves alone, and that it depends on the stream alone. -/

namespace Sys2Proof.Machine

/-- Turns that suffice: one more than the bytes, or as many when the buffer has room for 64 bytes. -/
abbrev TurnsEnough (turns : Nat) (c : Context) (data : Bytes) : Prop :=
  data.length < turns ∨ (c.buflen ≤ 64 ∧ data.length ≤ turns)

/-- What remains after an overflowing turn still has turns enough. -/
theorem turnsEnough_drop {turns : Nat} {c : Context} {data : Bytes} (h : TurnsEnough (turns + 1) c data)
    (ho : 128 - c.buflen < data.length) (b : Bytes) :
    TurnsEnough turns (absorbBlock c b) (data.drop (128 - c.buflen)) := by
  right
  rw [absorbBlock_buflen, List.length_drop]
  omega

/-- One turn of the loop. -/
theorem absorbLoop_turn (turns : Nat) (c : Context) (data : Bytes) : absorbLoop (turns + 1) c data =
    if data.length = 0 then c
    else if 128 - c.buflen < data.length then
      absorbLoop turns (absorbBlock c (data.take (128 - c.buflen))) (data.drop (128 - c.buflen))
    else absorbRest c data := rfl

/-- A turn more changes nothing. -/
theorem absorbLoop_succ (turns : Nat) : ∀ (c : Context) (data : Bytes), TurnsEnough turns c data →
    absorbLoop (turns + 1) c data = absorbLoop turns c data := by
  induction turns with
  | zero =>
    intro c data h
    have : data.length = 0 := by omega
    simp [absorbLoop, this]
  | succ k ih =>
    intro c data h
    rw [absorbLoop_turn (k + 1) c data, absorbLoop_turn k c data]
    split
    · rfl
    · split
      · exact ih _ _ (turnsEnough_drop h ‹_› _)
      · rfl

/-- The bound on the turns is no limit. -/
theorem absorbLoop_enough {turns : Nat} {c : Context} {data : Bytes} (h : TurnsEnough turns c data) :
    absorbLoop turns c data = absorb c data := by
  by_cases hlt : data.length < turns
  · obtain ⟨k, rfl⟩ : ∃ k, turns = data.length + 1 + k := ⟨turns - (data.length + 1), by omega⟩
    clear h hlt
    induction k with
    | zero => rfl
    | succ k ih => rw [← Nat.add_assoc, absorbLoop_succ _ _ _ (Or.inl (by omega)), ih]
  · have ht : turns = data.length := by omega
    subst ht
    exact (absorbLoop_succ _ _ _ h).symm

/-- No data: nothing changes. -/
@[simp] theorem absorb_nil (c : Context) : absorb c [] = c := rfl

/-- Data that fits the free space is copied in. -/
theorem absorb_fits (c : Context) (data : Bytes) (h : data.length ≤ 128 - c.buflen) :
    absorb c data = if data = [] then c else absorbRest c data := by
  rw [absorb, absorbLoop]
  by_cases hd : data = []
  · simp [hd]
  · have : data.length ≠ 0 := by simpa using hd
    rw [if_neg this, if_neg (by omega), if_neg hd]

/-- Data that overflows the buffer costs one turn. -/
theorem absorb_overflow (c : Context) (data : Bytes) (h : 128 - c.buflen < data.length) :
    absorb c data = absorb (absorbBlock c (data.take (128 - c.buflen))) (data.drop (128 - c.buflen)) := by
  rw [absorb, absorbLoop, if_neg (by omega), if_pos h]
  exact absorbLoop_enough (turnsEnough_drop (Or.inl (by omega)) h _)

/-- Induction over the turns of ABSORB. -/
theorem absorb_induction {P : Context → Bytes → Context → Prop}
    (nil : ∀ c, P c [] c)
    (rest : ∀ c data, data ≠ [] → data.length ≤ 128 - c.buflen → P c data (absorbRest c data))
    (block : ∀ c data r, 128 - c.buflen < data.length →
      P (absorbBlock c (data.take (128 - c.buflen))) (data.drop (128 - c.buflen)) r → P c data r)
    (c : Context) (data : Bytes) : P c data (absorb c data) := by
  suffices h : ∀ turns c data, TurnsEnough turns c data → P c data (absorbLoop turns c data) from
    h _ c data (Or.inl (Nat.lt_succ_self _))
  intro turns
  induction turns with
  | zero =>
    intro c data h
    have : data = [] := List.length_eq_zero_iff.1 (by omega)
    subst this
    exact nil c
  | succ k ih =>
    intro c data h
    rw [absorbLoop]
    split
    · have : data = [] := List.length_eq_zero_iff.1 ‹_›
      subst this
      exact nil c
    · split
      · exact block _ _ _ ‹_› (ih _ _ (turnsEnough_drop h ‹_› _))
      · exact rest _ _ (by rintro rfl; simp at *) (by omega)

/-- ABSORB writes buf, buflen, t and h only (R105). -/
theorem absorb_frame (c : Context) (data : Bytes) :
    (absorb c data).phase = c.phase ∧ (absorb c data).f0 = c.f0 ∧ (absorb c data).f1 = c.f1 ∧
      (absorb c data).lastNode = c.lastNode :=
  absorb_induction (P := fun c _ r => r.phase = c.phase ∧ r.f0 = c.f0 ∧ r.f1 = c.f1 ∧ r.lastNode = c.lastNode)
    (fun _ => ⟨rfl, rfl, rfl, rfl⟩)
    (fun c d _ _ => ⟨absorbRest_phase c d, absorbRest_f0 c d, absorbRest_f1 c d, absorbRest_lastNode c d⟩)
    (fun _ _ _ _ h => h) c data

@[simp] theorem absorb_phase (c : Context) (data : Bytes) : (absorb c data).phase = c.phase := (absorb_frame c data).1
@[simp] theorem absorb_f0 (c : Context) (data : Bytes) : (absorb c data).f0 = c.f0 := (absorb_frame c data).2.1
@[simp] theorem absorb_f1 (c : Context) (data : Bytes) : (absorb c data).f1 = c.f1 := (absorb_frame c data).2.2.1
@[simp] theorem absorb_lastNode (c : Context) (data : Bytes) : (absorb c data).lastNode = c.lastNode :=
  (absorb_frame c data).2.2.2

/-- ABSORB never makes buflen exceed 128 (R15). -/
theorem absorb_buflen_le (c : Context) (data : Bytes) (h : c.buflen ≤ 128) : (absorb c data).buflen ≤ 128 :=
  absorb_induction (P := fun c _ r => c.buflen ≤ 128 → r.buflen ≤ 128)
    (fun _ h => h)
    (fun c d _ hd h => by rw [absorbRest_buflen]; omega)
    (fun _ _ _ _ ih _ => ih (by simp)) c data h

end Sys2Proof.Machine
end

