-- ==== Sys2Proof/Laws/Stream.lean ====
section
/-! SUPPORT. What ABSORB does to the stream a context has absorbed: the reference chain depends on the blocks it
covers alone, one turn of the loop moves one block from the buffer to the chain, and buflen and T after any ABSORB. -/

namespace Sys2Proof.Machine

/-! ### The reference chain -/

/-- A block inside the stream does not depend on what follows it. -/
theorem streamBlock_append (S d : Bytes) (k : Nat) (h : 64 * k + 64 ≤ S.length) :
    streamBlock (S ++ d) k = streamBlock S k := by
  apply Vector.ext
  intro i hi
  simp only [streamBlock, Vector.getElem_ofFn]
  rw [List.getElem?_append_left (by omega)]

/-- The chain after k blocks does not depend on what follows them. -/
theorem chainAfter_append (h0 : Vector Word 8) (S d : Bytes) (k : Nat) (h : 64 * k ≤ S.length) :
    chainAfter h0 (S ++ d) k = chainAfter h0 S k := by
  induction k with
  | zero => rfl
  | succ k ih => rw [chainAfter, chainAfter, ih (by omega), streamBlock_append _ _ _ (by omega)]

/-! ### The part of R18 that every turn of the loop keeps -/

/-- R18 (e), (f) and the counter, with any number of buffered bytes that leaves whole blocks compressed. -/
structure Context.Tracks (c : Context) (h0 : Vector Word 8) (S : Bytes) : Prop where
  flag0 : c.f0 = 0
  flag1 : c.f1 = 0
  room : c.buflen ≤ 128
  within : c.buflen ≤ S.length
  whole : (S.length - c.buflen) % 64 = 0
  count : c.count = (S.length - c.buflen) % 2 ^ 64
  chain : c.h = chainAfter h0 S ((S.length - c.buflen) / 64)
  valid : ∀ i (hi : i < 128), i < c.buflen → S[S.length - c.buflen + i]? = some c.buf[i]

/-- Copying in what fits. -/
theorem Context.Tracks.rest {c : Context} {h0 : Vector Word 8} {S : Bytes} (t : c.Tracks h0 S) (d : Bytes)
    (hd : d.length ≤ 128 - c.buflen) : (absorbRest c d).Tracks h0 (S ++ d) := by
  have hr := t.room
  have hw := t.within
  have hsub : (S ++ d).length - (absorbRest c d).buflen = S.length - c.buflen := by
    rw [absorbRest_buflen, List.length_append]; omega
  refine ⟨by rw [absorbRest_f0]; exact t.flag0, by rw [absorbRest_f1]; exact t.flag1, ?_, ?_, ?_, ?_, ?_, ?_⟩
  · rw [absorbRest_buflen]; omega
  · rw [absorbRest_buflen, List.length_append]; omega
  · rw [hsub]; exact t.whole
  · rw [hsub, absorbRest_count]; exact t.count
  · rw [hsub, absorbRest_h, chainAfter_append _ _ _ _ (by omega)]; exact t.chain
  · intro i hi hb
    rw [hsub]
    simp only [absorbRest_buf, absorbRest_buflen] at hb ⊢
    by_cases h : i < c.buflen
    · rw [List.getElem?_append_left (by omega), t.valid i hi h, getElem_writeBytes_out _ _ _ _ hi (Or.inl h)]
    · rw [List.getElem?_append_right (by omega), getElem_writeBytes_in _ _ _ _ hi (by omega) (by omega),
        List.getElem?_eq_getElem (by omega)]
      simp only [Option.some.injEq]
      congr 1
      omega

/-- One turn that overflows: the first block of a full buffer joins the chain. -/
theorem Context.Tracks.block {c : Context} {h0 : Vector Word 8} {S : Bytes} (t : c.Tracks h0 S) (d : Bytes)
    (hd : 128 - c.buflen = d.length) : (absorbBlock c d).Tracks h0 (S ++ d) := by
  have hr := t.room
  have hw := t.within
  have hm := t.whole
  have hlen : (S ++ d).length = S.length - c.buflen + 128 := by rw [List.length_append]; omega
  have full : ∀ i (hi : i < 128), (S ++ d)[S.length - c.buflen + i]? = some (writeBytes c.buf c.buflen d)[i] := by
    intro i hi
    by_cases h : i < c.buflen
    · rw [List.getElem?_append_left (by omega), t.valid i hi h, getElem_writeBytes_out _ _ _ _ hi (Or.inl h)]
    · rw [List.getElem?_append_right (by omega), getElem_writeBytes_in _ _ _ _ hi (by omega) (by omega),
        List.getElem?_eq_getElem (by omega)]
      simp only [Option.some.injEq]
      congr 1
      omega
  have hk : (S.length - c.buflen + 64) / 64 = (S.length - c.buflen) / 64 + 1 := by omega
  have h64 : 64 * ((S.length - c.buflen) / 64) = S.length - c.buflen := by omega
  have hsub : (S ++ d).length - (absorbBlock c d).buflen = S.length - c.buflen + 64 := by
    rw [absorbBlock_buflen, hlen]; omega
  have hcount : (ctrAdd c 64).count = (S.length - c.buflen + 64) % 2 ^ 64 := by
    rw [count_ctrAdd, t.count]; omega
  have hT : (c.count + 64) % 2 ^ 64 = (64 * ((S.length - c.buflen) / 64 + 1)) % 2 ^ 64 := by
    rw [t.count]; omega
  have hblock : firstBlock (writeBytes c.buf c.buflen d) = streamBlock (S ++ d) ((S.length - c.buflen) / 64) := by
    apply Vector.ext
    intro i hi
    rw [getElem_firstBlock _ _ hi, streamBlock, Vector.getElem_ofFn, h64, full i (by omega), Option.getD_some]
  refine ⟨by rw [absorbBlock_f0]; exact t.flag0, by rw [absorbBlock_f1]; exact t.flag1, ?_, ?_, ?_, ?_, ?_, ?_⟩
  · rw [absorbBlock_buflen]; omega
  · rw [absorbBlock_buflen, hlen]; omega
  · rw [hsub]; omega
  · rw [hsub, absorbBlock_count]; exact hcount
  · rw [hsub, hk, chainAfter, absorbBlock_h, chainAfter_append _ _ _ _ (by omega), ← t.chain, t.flag0, t.flag1,
      ctrAdd_t0, ctrAdd_t1, counterLow_congr hT, counterHigh_congr hT, hblock]
  · intro i hi hb
    rw [absorbBlock_buflen] at hb
    rw [hsub, Nat.add_assoc, full (64 + i) (by omega)]
    simp only [absorbBlock_buf]
    rw [getElem_shiftDown _ _ _ (Nat.le_refl 64) hi, dif_pos hb]

/-- ABSORB keeps what a context tracks. -/
theorem Context.Tracks.absorb {c : Context} {h0 : Vector Word 8} {S : Bytes} (t : c.Tracks h0 S) (d : Bytes) :
    (absorb c d).Tracks h0 (S ++ d) := by
  refine absorb_induction (P := fun c d r => ∀ S, c.Tracks h0 S → r.Tracks h0 (S ++ d)) ?_ ?_ ?_ c d S t
  · intro c S t
    rwa [List.append_nil]
  · intro c d _ hd S t
    exact t.rest d hd
  · intro c d r ho ih S t
    have := ih _ (t.block (d.take (128 - c.buflen)) (by rw [List.length_take]; omega))
    rwa [List.append_assoc, List.take_append_drop] at this

/-! ### buflen and T after ABSORB -/

/-- The number of blocks ABSORB compresses (R166). -/
def turnsOf (buflen len : Nat) : Nat := if len ≤ 128 - buflen then 0 else (buflen + len - 128 + 63) / 64

/-- buflen and T after ABSORB (R18 (d), R166). -/
theorem absorb_counts (c : Context) (d : Bytes) (h : c.buflen ≤ 128) :
    (absorb c d).buflen + 64 * turnsOf c.buflen d.length = c.buflen + d.length ∧
      (absorb c d).count = (c.count + 64 * turnsOf c.buflen d.length) % 2 ^ 64 := by
  refine absorb_induction (P := fun c d r => c.buflen ≤ 128 →
    r.buflen + 64 * turnsOf c.buflen d.length = c.buflen + d.length ∧
      r.count = (c.count + 64 * turnsOf c.buflen d.length) % 2 ^ 64) ?_ ?_ ?_ c d h
  · intro c _
    have := c.count_lt
    simp only [turnsOf, List.length_nil, Nat.zero_le, if_pos, Nat.mul_zero, Nat.add_zero, true_and]
    omega
  · intro c d _ hd _
    have := c.count_lt
    simp only [turnsOf, hd, if_pos, Nat.mul_zero, Nat.add_zero, absorbRest_buflen, absorbRest_count, true_and]
    omega
  · intro c d r ho ih hc
    obtain ⟨h1, h2⟩ := ih (by simp)
    have hk : turnsOf c.buflen d.length = turnsOf 64 (d.length - (128 - c.buflen)) + 1 := by
      simp only [turnsOf]; split <;> split <;> omega
    simp only [absorbBlock_buflen, absorbBlock_count, List.length_drop, count_ctrAdd] at h1 h2
    rw [hk]
    omega

end Sys2Proof.Machine
end

