-- ==== Sys2Proof/Laws/Exec.lean ====
section
/-! SUPPORT. What each meaning answers, by the case its checks put it in: the lemmas the provers cite instead of
unfolding a meaning. -/

namespace Sys2Proof.Machine

/-! ### The context file -/

theorem onContext_none {ctx : Fin 16} {s : State} (body : Context → Except CmdError (Context × Bytes))
    (h : s.ctx[ctx.val]? = none) : onContext ctx s body = .next (s.raise .invalidCommand) := by
  simp [onContext, h]

theorem onContext_error {ctx : Fin 16} {s : State} {body : Context → Except CmdError (Context × Bytes)}
    {c : Context} {e : CmdError} (h : s.ctx[ctx.val]? = some c) (hb : body c = .error e) :
    onContext ctx s body = .next (s.raise e) := by
  simp [onContext, h, hb]

theorem onContext_ok {ctx : Fin 16} {s : State} {body : Context → Except CmdError (Context × Bytes)}
    {c d : Context} {out : Bytes} (h : s.ctx[ctx.val]? = some c) (hb : body c = .ok (d, out)) :
    onContext ctx s body = .next ({ s with ctx := s.ctx.set ctx.val d }.replyOk out) := by
  simp [onContext, h, hb]

/-- Everything a command on one context can do. -/
theorem onContext_cases (ctx : Fin 16) (s : State) (body : Context → Except CmdError (Context × Bytes)) :
    (∃ e, onContext ctx s body = .next (s.raise e)) ∨
    (∃ c d out, s.ctx[ctx.val]? = some c ∧ body c = .ok (d, out) ∧
      onContext ctx s body = .next ({ s with ctx := s.ctx.set ctx.val d }.replyOk out)) := by
  cases h : s.ctx[ctx.val]? with
  | none => exact .inl ⟨_, onContext_none body h⟩
  | some c =>
    cases hb : body c with
    | error e => exact .inl ⟨e, onContext_error h hb⟩
    | ok p => exact .inr ⟨c, p.1, p.2, rfl, hb, onContext_ok h hb⟩

/-! ### Key staging -/

/-- The staged key block: the key bytes, then zeros. -/
theorem getElem_stageKey (k : Vector Byte 64) (key : Bytes) (hk : key.length ≤ 64) (i : Nat) (hi : i < 64) :
    (stageKey k key)[i] = (key[i]?).getD 0 := by
  rw [stageKey]
  by_cases h : i < key.length
  · rw [getElem_writeBytes_out _ _ _ _ hi (Or.inl h), getElem_writeBytes_in _ _ _ _ hi (Nat.zero_le i) (by omega)]
    simp [h]
  · rw [getElem_writeBytes_in _ _ _ _ hi (by omega) (by rw [zeros_length]; omega)]
    rw [List.getElem?_eq_none (by omega)]
    simp [zeros]

/-- ERASE leaves 64 zero bytes (R101). -/
@[simp] theorem eraseKey_eq (k : Vector Byte 64) : eraseKey k = Vector.replicate 64 0 := writeBytes_zeros k

/-- The staged key block as a byte sequence. -/
theorem readBytes_stageKey (k : Vector Byte 64) (key : Bytes) (hk : key.length ≤ 64) :
    readBytes (stageKey k key) 0 64 = keyBlock key := by
  apply List.ext_getElem?
  intro i
  rw [getElem?_readBytes, Nat.zero_add]
  by_cases hi : i < 64
  · rw [if_pos hi, Vector.getElem?_eq_getElem hi, getElem_stageKey k key hk i hi, keyBlock]
    by_cases h : i < key.length
    · rw [List.getElem?_append_left h]
      simp [h]
    · rw [List.getElem?_append_right (by omega), zeros_getElem?, if_pos (by omega), List.getElem?_eq_none (by omega)]
      rfl
  · rw [if_neg hi, List.getElem?_eq_none]
    rw [keyBlock, List.length_append, zeros_length]
    omega

/-- A keyed initialisation in range: the padded key block is buffered and nothing is compressed (R104). -/
theorem startKeyed_eq (c : Context) (k : Vector Byte 64) (n kl : Nat) (key : Bytes) (hn : n < 256)
    (hkl : kl ≤ 64) (hk : kl ≤ key.length) :
    startKeyed c k (plainBlock (BitVec.ofNat 8 n) (BitVec.ofNat 8 kl)) (key.take kl) =
      ⟨keyedContext n kl key, Vector.replicate 64 0⟩ := by
  have hlen : (key.take kl).length = kl := by rw [List.length_take]; omega
  have hb : (keyBlock (key.take kl)).length = 64 := by
    rw [keyBlock, List.length_append, zeros_length, hlen]; omega
  rw [startKeyed, readBytes_stageKey _ _ (by omega), eraseKey_eq]
  congr 1
  rw [absorb_fits _ _ (by rw [pinit_buflen, hb]; decide), if_neg (by rw [← List.length_eq_zero_iff, hb]; decide)]
  apply Context.ext
  · simp [keyedContext, freshContext]
  · rw [absorbRest_h, pinit_h, paramChain_closed _ _ hn (by omega)]
    rfl
  · simp [keyedContext, freshContext]
  · simp [keyedContext, freshContext]
  · simp [keyedContext, freshContext]
  · simp [keyedContext, freshContext]
  · rw [absorbRest_buf, pinit_buf, pinit_buflen]
    apply Vector.ext
    intro i hi
    simp only [keyedContext]
    rw [getElem_writeBytes, if_pos (Nat.zero_le i), Nat.sub_zero, Vector.getElem_ofFn, Vector.getElem_replicate, keyBlock]
    by_cases h : i < kl
    · rw [if_pos h, List.getElem?_append_left (by omega), List.getElem?_take, if_pos h]
    · rw [if_neg h, List.getElem?_append_right (by omega), zeros_getD]
  · rw [absorbRest_buflen, pinit_buflen, hb]
    simp [keyedContext]
  · simp [keyedContext, freshContext]

/-! ### INIT_KEY -/

theorem checkDigestLength_ok {n : Nat} (h : 1 ≤ n ∧ n ≤ 32) : checkDigestLength n = .ok () := by
  rw [checkDigestLength, if_pos ((digestLengthOk_iff n).2 h)]

theorem checkDigestLength_error {n : Nat} (h : n = 0 ∨ 32 < n) :
    checkDigestLength n = .error .invalidDigestLength := by
  rw [checkDigestLength, if_neg (by rw [digestLengthOk_iff]; omega)]

theorem initKeyContext_ok (c : Context) (k : Vector Byte 64) (n kl : Nat) (key : Bytes) (hn : 1 ≤ n ∧ n ≤ 32)
    (hkl : 1 ≤ kl ∧ kl ≤ 32) (hk : kl ≤ key.length) :
    initKeyContext c k n kl (some key) = .ok ⟨keyedContext n kl key, Vector.replicate 64 0⟩ := by
  have hd := (digestLengthOk_iff n).2 hn
  have hl := (keyLengthOk_iff kl).2 hkl
  have hp := pbuild_ok n kl true hd (fun _ => hl)
  have hr : readKey kl (some key) = .ok (key.take kl) := by simp [readKey, hl, hk]
  simp only [initKeyContext, checkDigestLength_ok hn, hr, hp]
  rw [← startKeyed_eq c k n kl key (by omega) (by omega) hk]
  rfl

theorem initKeyContext_badLength (c : Context) (k : Vector Byte 64) (n kl : Nat) (key : Option Bytes)
    (h : n = 0 ∨ 32 < n) : initKeyContext c k n kl key = .error .invalidDigestLength := by
  rw [initKeyContext, checkDigestLength_error h]

theorem initKeyContext_badKey (c : Context) (k : Vector Byte 64) (n kl : Nat) (key : Option Bytes)
    (hn : 1 ≤ n ∧ n ≤ 32) (h : key = none ∨ kl = 0 ∨ 32 < kl) :
    initKeyContext c k n kl key = .error .invalidKey := by
  have hr : readKey kl key = .error .invalidKey := by
    cases key with
    | none => rfl
    | some b =>
      have hl : ¬ keyLengthOk kl = true := by rw [keyLengthOk_iff]; simp at h; omega
      simp [readKey, hl]
  simp only [initKeyContext, checkDigestLength_ok hn, hr]

theorem initKeyContext_shortKey (c : Context) (k : Vector Byte 64) (n kl : Nat) (key : Bytes)
    (hn : 1 ≤ n ∧ n ≤ 32) (hkl : 1 ≤ kl ∧ kl ≤ 32) (hk : key.length < kl) :
    initKeyContext c k n kl (some key) = .error .invalidKey := by
  have hl := (keyLengthOk_iff kl).2 hkl
  have hr : readKey kl (some key) = .error .invalidKey := by
    simp [readKey, hl, hk, shortKeyError]
  simp only [initKeyContext, checkDigestLength_ok hn, hr]

/-! ### UPDATE and FINAL -/

theorem requireReady_ok {c : Context} (h : c.phase = .ready) : requireReady c = .ok () := if_pos h
theorem requireReady_error {c : Context} (h : c.phase ≠ .ready) : requireReady c = .error .invalidState := if_neg h

theorem execUpdate_ready {s : State} {ctx : Fin 16} {c : Context} (x : Bytes) (h : s.ctx[ctx.val]? = some c)
    (hp : c.phase = .ready) :
    execUpdate ctx x s = .next ({ s with ctx := s.ctx.set ctx.val (absorb c x) }.replyOk []) :=
  onContext_ok h (by rw [requireReady_ok hp]; rfl)

theorem execUpdate_notReady {s : State} {ctx : Fin 16} {c : Context} (x : Bytes) (h : s.ctx[ctx.val]? = some c)
    (hp : c.phase ≠ .ready) : execUpdate ctx x s = .next (s.raise .invalidState) :=
  onContext_error h (by rw [requireReady_error hp]; rfl)

/-- The serialized digest, truncated (R109). -/
theorem readBytes_serializeDigest (h : Vector Word 8) (n : Nat) :
    readBytes (serializeDigest h) 0 n = (serializeDigest h).toList.take n := by
  simp [readBytes]

theorem finalContext_ready {c : Context} {n : Nat} (hp : c.phase = .ready) (hn : n ≤ 32) :
    finalContext c n = .ok ({ lastBlock (drainBlock c) with phase := .finalized },
      (serializeDigest (lastBlock (drainBlock c)).h).toList.take n) := by
  have h : ¬ Config.OUTBYTES < n := Nat.not_lt.2 hn
  rw [finalContext, requireReady_ok hp]
  simp only [if_neg h, readBytes_serializeDigest]

theorem finalContext_badLength {c : Context} {n : Nat} (hp : c.phase = .ready) (hn : 32 < n) :
    finalContext c n = .error .invalidDigestLength := by
  have h : Config.OUTBYTES < n := hn
  rw [finalContext, requireReady_ok hp]
  simp only [if_pos h]

theorem finalContext_notReady {c : Context} (n : Nat) (hp : c.phase ≠ .ready) :
    finalContext c n = .error .invalidState := by
  rw [finalContext, requireReady_error hp]

/-! ### Inversion: everything each meaning can answer -/

/-- INIT answers an error, or a fresh session in the context named (R102). -/
theorem execInit_cases (ctx : Fin 16) (n : Fin 256) (s : State) :
    (∃ e, execInit ctx n s = .next (s.raise e)) ∨
    (ctx.val < s.ctx.length ∧ 1 ≤ n.val ∧ n.val ≤ 32 ∧
      execInit ctx n s = .next ({ s with ctx := s.ctx.set ctx.val (freshContext n.val) }.replyOk [])) := by
  obtain he | ⟨c, d, out, hc, hb, ho⟩ :=
    onContext_cases ctx s (fun c => (initContext c n.val).map fun c' => (c', []))
  · exact .inl he
  · by_cases hn : 1 ≤ n.val ∧ n.val ≤ 32
    · rw [initContext_ok c n.val hn.1 hn.2] at hb
      injection hb with hb
      injection hb with hd hout
      subst hd hout
      exact .inr ⟨(List.getElem?_eq_some_iff.1 hc).1, hn.1, hn.2, ho⟩
    · rw [initContext_error c n.val (by omega)] at hb
      cases hb

/-- INIT_KEY answers an error, or a fresh keyed session in the context named and an erased KSTAGE (R104). -/
theorem execInitKey_cases (ctx : Fin 16) (n kl : Fin 256) (key : Option Bytes) (s : State) :
    (∃ e, execInitKey ctx n kl key s = .next (s.raise e)) ∨
    (∃ k, key = some k ∧ ctx.val < s.ctx.length ∧ 1 ≤ n.val ∧ n.val ≤ 32 ∧ 1 ≤ kl.val ∧ kl.val ≤ 32 ∧
      kl.val ≤ k.length ∧
      execInitKey ctx n kl key s = .next ({ s with
        ctx := s.ctx.set ctx.val (keyedContext n.val kl.val k)
        kstage := Vector.replicate 64 0 }.replyOk [])) := by
  unfold execInitKey
  cases hc : s.ctx[ctx.val]? with
  | none => exact .inl ⟨_, rfl⟩
  | some c =>
    simp only
    cases hk : initKeyContext c s.kstage n.val kl.val key with
    | error e => exact .inl ⟨e, rfl⟩
    | ok r =>
      have hlt := (List.getElem?_eq_some_iff.1 hc).1
      by_cases hn : 1 ≤ n.val ∧ n.val ≤ 32
      · by_cases hb : key = none ∨ kl.val = 0 ∨ 32 < kl.val
        · rw [initKeyContext_badKey _ _ _ _ _ hn hb] at hk
          cases hk
        · cases key with
          | none => simp at hb
          | some k =>
            have hkl : 1 ≤ kl.val ∧ kl.val ≤ 32 := by
              refine ⟨?_, ?_⟩ <;> by_contra h <;> exact hb (.inr (by omega))
            by_cases hs : k.length < kl.val
            · rw [initKeyContext_shortKey _ _ _ _ _ hn hkl hs] at hk
              cases hk
            · rw [initKeyContext_ok _ _ _ _ _ hn hkl (by omega)] at hk
              injection hk with hk
              subst hk
              exact .inr ⟨k, rfl, hlt, hn.1, hn.2, hkl.1, hkl.2, by omega, rfl⟩
      · rw [initKeyContext_badLength _ _ _ _ _ (by omega)] at hk
        cases hk

/-- UPDATE answers an error, or absorbs into the READY context named (R106). -/
theorem execUpdate_cases (ctx : Fin 16) (x : Bytes) (s : State) :
    (∃ e, execUpdate ctx x s = .next (s.raise e)) ∨
    (∃ c, s.ctx[ctx.val]? = some c ∧ c.phase = .ready ∧
      execUpdate ctx x s = .next ({ s with ctx := s.ctx.set ctx.val (absorb c x) }.replyOk [])) := by
  cases hc : s.ctx[ctx.val]? with
  | none => exact .inl ⟨_, onContext_none _ hc⟩
  | some c =>
    by_cases hp : c.phase = .ready
    · exact .inr ⟨c, rfl, hp, execUpdate_ready x hc hp⟩
    · exact .inl ⟨_, execUpdate_notReady x hc hp⟩

/-- The context FINAL leaves (R108). -/
def finished (c : Context) : Context := { lastBlock (drainBlock c) with phase := .finalized }

/-- FINAL answers an error, or finishes the READY context named (R108). -/
theorem execFinal_cases (ctx : Fin 16) (n : Fin 256) (s : State) :
    (∃ e, execFinal ctx n s = .next (s.raise e)) ∨
    (∃ c, s.ctx[ctx.val]? = some c ∧ c.phase = .ready ∧ n.val ≤ 32 ∧
      execFinal ctx n s = .next ({ s with ctx := s.ctx.set ctx.val (finished c) }.replyOk
        ((serializeDigest (finished c).h).toList.take n.val))) := by
  cases hc : s.ctx[ctx.val]? with
  | none => exact .inl ⟨_, onContext_none _ hc⟩
  | some c =>
    by_cases hp : c.phase = .ready
    · by_cases hn : n.val ≤ 32
      · exact .inr ⟨c, rfl, hp, hn, onContext_ok hc (finalContext_ready hp hn)⟩
      · exact .inl ⟨_, onContext_error hc (finalContext_badLength hp (by omega))⟩
    · exact .inl ⟨_, onContext_error hc (finalContext_notReady _ hp)⟩

@[simp] theorem effectiveKeyLength_none (kl : Nat) : effectiveKeyLength kl none = 0 := rfl
@[simp] theorem effectiveKeyLength_some (kl : Nat) (k : Bytes) : effectiveKeyLength kl (some k) = kl := rfl

/-- The initialisation HASH picks answers an error, or a fresh session, keyed when the effective key length is not 0
(R120). -/
theorem hashStart_cases (s : State) (n kl : Nat) (key : Option Bytes) :
    (∃ e, hashStart s n kl key = .error e) ∨
    (1 ≤ n ∧ n ≤ 32 ∧ (key = none ∨ kl = 0) ∧ hashStart s n kl key = .ok ⟨freshContext n, s.kstage⟩) ∨
    (∃ k, key = some k ∧ 1 ≤ n ∧ n ≤ 32 ∧ 1 ≤ kl ∧ kl ≤ 32 ∧ kl ≤ k.length ∧
      hashStart s n kl key = .ok ⟨keyedContext n kl k, Vector.replicate 64 0⟩) := by
  unfold hashStart
  by_cases hn : 1 ≤ n ∧ n ≤ 32
  · cases key with
    | none =>
      rw [effectiveKeyLength_none, if_pos rfl, initContext_ok _ _ hn.1 hn.2]
      exact .inr (.inl ⟨hn.1, hn.2, .inl rfl, rfl⟩)
    | some k =>
      rw [effectiveKeyLength_some]
      by_cases h0 : kl = 0
      · rw [if_pos h0, initContext_ok _ _ hn.1 hn.2]
        exact .inr (.inl ⟨hn.1, hn.2, .inr h0, rfl⟩)
      · rw [if_neg h0]
        by_cases hb : 32 < kl
        · rw [initKeyContext_badKey _ _ _ _ _ hn (.inr (.inr hb))]
          exact .inl ⟨_, rfl⟩
        · by_cases hs : k.length < kl
          · rw [initKeyContext_shortKey _ _ _ _ _ hn (by omega) hs]
            exact .inl ⟨_, rfl⟩
          · rw [initKeyContext_ok _ _ _ _ _ hn (by omega) (by omega)]
            exact .inr (.inr ⟨k, rfl, hn.1, hn.2, by omega, by omega, by omega, rfl⟩)
  · left
    split
    · rw [initContext_error _ _ (by omega)]
      exact ⟨_, rfl⟩
    · exact ⟨_, initKeyContext_badLength _ _ _ _ _ (by omega)⟩

/-- HASH answers an error, or the digest of the session it composes on the scratch context (R120). -/
theorem execHash_cases (n kl : Fin 256) (input : Option Bytes) (outp : Bool) (key : Option Bytes) (s : State) :
    (∃ e, execHash n kl input outp key s = .next (s.raise e)) ∨
    (∃ M r, input = some M ∧ outp = true ∧ 1 ≤ n.val ∧ n.val ≤ 32 ∧ hashStart s n.val kl.val key = .ok r ∧
      r.context.phase = .ready ∧
      execHash n kl input outp key s = .next ({ s with
        scr := finished (absorb r.context M)
        kstage := r.kstage }.replyOk ((serializeDigest (finished (absorb r.context M)).h).toList.take n.val))) := by
  unfold execHash
  cases hi : readInput input outp with
  | error e => exact .inl ⟨e, rfl⟩
  | ok M =>
    simp only
    have hin : input = some M ∧ outp = true := by
      cases input <;> cases outp <;> simp_all [readInput]
    have fin : ∀ c : Context, c.phase = .ready → n.val ≤ 32 →
        finalContext (absorb c M) n.val = .ok (finished (absorb c M),
          (serializeDigest (finished (absorb c M)).h).toList.take n.val) :=
      fun c hp h2 => finalContext_ready (by rw [absorb_phase]; exact hp) h2
    obtain ⟨e, h⟩ | ⟨h1, h2, -, h⟩ | ⟨k, -, h1, h2, -, -, -, h⟩ := hashStart_cases s n.val kl.val key
    · exact .inl ⟨e, by rw [h]⟩
    · exact .inr ⟨M, _, hin.1, hin.2, h1, h2, h, rfl, by simp only [h, fin (freshContext n.val) rfl h2]⟩
    · exact .inr ⟨M, _, hin.1, hin.2, h1, h2, h, rfl, by simp only [h, fin (keyedContext n.val kl.val k) rfl h2]⟩

end Sys2Proof.Machine
end

