-- ==== Sys2Proof/Laws/PerInstr.lean ====
section
/-! SUPPORT. One lemma per command: a well-formed command names a context the engine has (R55). -/

namespace Sys2Proof.Laws.NamesContext
open Machine

/-- A well-formed command that names a context names one below NCTX. -/
def Statement (i : Instr) : Prop := ∀ nctx k : Nat, i.wf nctx = true → i.names = some k → k < nctx

theorem init (ctx : Fin 16) (n : Fin 256) : Statement (.init ctx n) := by
  intro nctx k hw hk
  simp_all [Instr.wf, Instr.names, ctxInRange]

theorem initKey (ctx : Fin 16) (n kl : Fin 256) (key : Option Bytes) : Statement (.initKey ctx n kl key) := by
  intro nctx k hw hk
  simp_all [Instr.wf, Instr.names, ctxInRange]

theorem update (ctx : Fin 16) (input : Bytes) : Statement (.update ctx input) := by
  intro nctx k hw hk
  simp_all [Instr.wf, Instr.names, ctxInRange]

theorem final (ctx : Fin 16) (n : Fin 256) : Statement (.final ctx n) := by
  intro nctx k hw hk
  simp_all [Instr.wf, Instr.names, ctxInRange]

theorem hash (n kl : Fin 256) (input : Option Bytes) (outp : Bool) (key : Option Bytes) :
    Statement (.hash n kl input outp key) := by
  intro nctx k hw hk
  simp [Instr.names] at hk

end Sys2Proof.Laws.NamesContext
end

