-- ==== Sys2Proof/Laws/Session.lean ====
section
/-! SUPPORT. The laws of a session: ABSORB depends on the stream and not on how it is cut, what a fresh session holds,
and what the two blocks of FINAL make of a stream. -/

namespace Sys2Proof.Machine

/-- What is not buffered is a whole number of blocks (R18 (d)). -/
theorem bufferedOf_facts (A : Nat) : (A - bufferedOf A) % 64 = 0 ∧ bufferedOf A ≤ A ∧ bufferedOf A ≤ 128 := by
  unfold bufferedOf; split <;> omega

/-- Filling after a copy is filling with both. -/
theorem absorbBlock_append (c : Context) (x z : Bytes) : absorbBlock (absorbRest c x) z = absorbBlock c (x ++ z) := by
  have hw := writeBytes_append c.buf c.buflen x z
  unfold absorbBlock
  simp only [absorbRest_buf, absorbRest_buflen, hw]
  simp [absorbRest, ctrAdd, compressFirst, Context.count]

/-- ABSORB of a joined input is ABSORB of its parts (R107). -/
theorem absorb_append (c : Context) (x y : Bytes) (h : c.buflen ≤ 128) : absorb c (x ++ y) = absorb (absorb c x) y := by
  refine absorb_induction (P := fun c x r => c.buflen ≤ 128 → ∀ y, absorb c (x ++ y) = absorb r y) ?_ ?_ ?_ c x h y
  · intro c _ y; rfl
  · intro c x hx hl hb y
    have hb' := absorbRest_buflen c x
    by_cases ho : 128 - c.buflen < (x ++ y).length
    · rw [absorb_overflow _ _ ho]
      rw [List.length_append] at ho
      have ht : (x ++ y).take (128 - c.buflen) = x ++ y.take (128 - (absorbRest c x).buflen) := by
        rw [List.take_append, List.take_of_length_le hl, hb', Nat.sub_sub]
      have hd : (x ++ y).drop (128 - c.buflen) = y.drop (128 - (absorbRest c x).buflen) := by
        rw [List.drop_append, List.drop_of_length_le hl, List.nil_append, hb', Nat.sub_sub]
      rw [ht, hd, ← absorbBlock_append, ← absorb_overflow _ _ (by omega)]
    · rw [List.length_append] at ho
      rw [absorb_fits _ _ (by rw [List.length_append]; omega), absorb_fits _ _ (by omega)]
      have : x ++ y ≠ [] := by simp [hx]
      rw [if_neg this]
      by_cases hy : y = []
      · simp [hy]
      · rw [if_neg hy]
        unfold absorbRest
        simp [writeBytes_append, Nat.add_assoc]
  · intro c x r ho ih hb y
    rw [absorb_overflow c (x ++ y) (by rw [List.length_append]; omega), List.take_append_of_le_length (by omega),
      List.drop_append_of_le_length (by omega)]
    exact ih (by simp) y

/-- FINAL's last one or two blocks give the reference chaining value of the stream (R111). -/
theorem lastBlock_drainBlock_h (c : Context) (h0 : Vector Word 8) (S : Bytes) (H : c.Holds h0 S) :
    (lastBlock (drainBlock c)).h = finalChain h0 S := by
  obtain ⟨hp, hf0, hf1, hl, hb, hc, hh, hv⟩ := H
  have hs := bufferedOf_facts S.length
  rw [← hb] at hs
  by_cases h64 : c.buflen ≤ 64
  · have hA : S.length = c.buflen := by rw [hb] at h64 ⊢; unfold bufferedOf at *; split at h64 <;> (split <;> omega)
    have hd : drainBlock c = c := by rw [drainBlock, if_neg (by omega)]
    have hz : (S.length - c.buflen) = 0 := by omega
    rw [hz] at hc hh hv
    have hN : blockCount S.length - 1 = 0 := by unfold blockCount; omega
    rw [hd, lastBlock_h, finalChain, hN, ctrAdd_t0, ctrAdd_t1, hl, hf1, hc, hh, hA]
    have : firstBlock (writeBytes c.buf c.buflen (zeros (128 - c.buflen))) = streamBlock S 0 := by
      apply Vector.ext
      intro i hi
      rw [getElem_firstBlock _ _ hi, streamBlock, Vector.getElem_ofFn]
      by_cases hlt : i < c.buflen
      · rw [getElem_writeBytes_out _ _ _ _ _ (Or.inl hlt)]
        have := hv ⟨i, by omega⟩ hlt
        simp only [Nat.zero_add, Nat.mul_zero] at this ⊢
        rw [this]; rfl
      · rw [getElem_writeBytes_in _ _ _ _ _ (by omega) (by simp; omega)]
        rw [List.getElem?_eq_none (by simp; omega)]
        simp [zeros]
    rw [this]
    simp [flagSet]
  · have hd : drainBlock c = { compressFirst (ctrAdd c 64) with buflen := c.buflen - 64, buf := writeBytes c.buf 0 (readBytes c.buf 64 (c.buflen - 64)) } := by
      rw [drainBlock, if_pos (by omega)]; rfl
    obtain ⟨k, hk⟩ : ∃ k, S.length - c.buflen = 64 * k := ⟨(S.length - c.buflen) / 64, by omega⟩
    have hk2 : 64 * k / 64 = k := by omega
    rw [hk] at hc hh hv
    rw [hk2] at hh
    have hN : blockCount S.length - 1 = k + 1 := by unfold blockCount; omega
    have hcnt : (drainBlock c).count = (c.count + 64) % 2^64 := by
      rw [hd]; exact count_ctrAdd c 64
    have hbl : (drainBlock c).buflen = c.buflen - 64 := by rw [hd]
    have hT : ((c.count + 64) % 2^64 + (c.buflen - 64)) % 2^64 = S.length % 2^64 := by rw [hc]; omega
    have hT1 : (c.count + 64) % 2^64 = (64 * (k+1)) % 2^64 := by rw [hc]; omega
    rw [lastBlock_h, finalChain, hN, chainAfter, ctrAdd_t0, ctrAdd_t1, hcnt, hbl, counterLow_congr hT, counterHigh_congr hT]
    have e1 : firstBlock (writeBytes (drainBlock c).buf (c.buflen - 64) (zeros (128 - (c.buflen - 64)))) = streamBlock S (k+1) := by
      have : (drainBlock c).buf = writeBytes c.buf 0 (readBytes c.buf 64 (c.buflen - 64)) := by rw [hd]
      rw [this]
      apply Vector.ext
      intro i hi
      rw [getElem_firstBlock _ _ hi, streamBlock, Vector.getElem_ofFn]
      by_cases hlt : i < c.buflen - 64
      · rw [getElem_writeBytes_out _ _ _ _ _ (Or.inl hlt), getElem_shiftDown _ _ _ (by omega) (by omega), dif_pos hlt]
        have := hv ⟨64 + i, by omega⟩ (by simp; omega)
        simp only [] at this
        rw [show 64 * (k+1) + i = 64 * k + (64 + i) by omega, this]; rfl
      · rw [getElem_writeBytes_in _ _ _ _ _ (by omega) (by simp; omega)]
        rw [List.getElem?_eq_none (by simp; omega)]
        simp [zeros]
    have e2 : (drainBlock c).h = compress (chainAfter h0 S k) (counterLow (64 * (k + 1))) (counterHigh (64 * (k + 1))) 0 0 (streamBlock S k) := by
      rw [hd]
      show compress c.h _ _ c.f0 c.f1 (firstBlock c.buf) = _
      rw [hh, hf0, hf1, ctrAdd_t0, ctrAdd_t1, counterLow_congr hT1, counterHigh_congr hT1]
      have : firstBlock c.buf = streamBlock S k := by
        apply Vector.ext
        intro i hi
        rw [getElem_firstBlock _ _ hi, streamBlock, Vector.getElem_ofFn]
        have := hv ⟨i, by omega⟩ (by simp; omega)
        simp only [] at this ⊢
        rw [this]; rfl
      rw [this]
    have e3 : (if (drainBlock c).lastNode then flagSet else (drainBlock c).f1) = 0 := by rw [hd]; show (if c.lastNode then flagSet else c.f1) = 0; simp [hl, hf1]
    rw [e1, e2, e3]; rfl

/-- INIT: nothing absorbed. -/
theorem freshContext_holds (n : Nat) : (freshContext n).Holds (freshChain n 0) [] := by
  refine ⟨rfl, rfl, rfl, rfl, rfl, rfl, by simp [freshContext, chainAfter], ?_⟩
  intro i hi; simp [freshContext] at hi

/-- INIT_KEY: the key block absorbed. -/
theorem keyedContext_holds (n kl : Nat) (key : Bytes) (h1 : kl ≤ 32) (h2 : kl ≤ key.length) :
    (keyedContext n kl key).Holds (freshChain n kl) (keyBlock (key.take kl)) := by
  have hlen : (key.take kl).length = kl := by rw [List.length_take]; omega
  have hb : (keyBlock (key.take kl)).length = 64 := by
    rw [keyBlock, List.length_append, zeros_length, hlen]; omega
  refine ⟨rfl, rfl, rfl, rfl, by rw [hb]; rfl, by rw [hb]; rfl, by rw [hb]; simp [keyedContext, chainAfter], ?_⟩
  intro i hi
  rw [hb]
  have hi' : i.val < 64 := hi
  show (keyBlock (key.take kl))[64 - 64 + i.val]? = some (Vector.ofFn _)[i.val]
  rw [Vector.getElem_ofFn, Nat.sub_self, Nat.zero_add, keyBlock]
  by_cases h : i.val < kl
  · rw [List.getElem?_append_left (by omega), if_pos h, List.getElem?_take, if_pos h, List.getElem?_eq_getElem (by omega)]; rfl
  · rw [if_neg h, List.getElem?_append_right (by omega), zeros_getElem?, if_pos (by omega)]

end Sys2Proof.Machine
end

