-- ==== Sys2Proof/Machine/TextSyntax.lean ====
section
/-! DEFINITION. The text syntax of commands (30_encoding.md R58, D22): how a command is written in listings, and the
source's own names for the commands. It has no effect on the machine. -/

namespace Sys2Proof.Machine

/-- One hexadecimal digit. -/
def hexDigit (d : Nat) : Char := (['0', '1', '2', '3', '4', '5', '6', '7', '8', '9', 'a', 'b', 'c', 'd', 'e', 'f'][d]?).getD '?'

/-- A byte string as hex pairs, element 0 first; the empty string is written with two quotes. -/
def bytesText (b : Bytes) : String :=
  if b.isEmpty then "\"\"" else String.ofList (b.flatMap fun x => [hexDigit (x.toNat / 16), hexDigit (x.toNat % 16)])

/-- An operand that may be absent. -/
def operandText (b : Option Bytes) : String :=
  match b with
  | some b => bytesText b
  | none => "none"

/-- A command written out (R58). -/
def instrText (i : Instr) : String :=
  match i with
  | .init ctx n => "INIT " ++ toString ctx.val ++ ", " ++ toString n.val
  | .initKey ctx n kl key =>
    "INIT_KEY " ++ toString ctx.val ++ ", " ++ toString n.val ++ ", " ++ toString kl.val ++ ", " ++ operandText key
  | .update ctx input => "UPDATE " ++ toString ctx.val ++ ", " ++ bytesText input
  | .final ctx n => "FINAL " ++ toString ctx.val ++ ", " ++ toString n.val
  | .hash n kl input outp key =>
    "HASH " ++ toString n.val ++ ", " ++ toString kl.val ++ ", " ++ operandText input ++ ", " ++
      (if outp then "yes" else "none") ++ ", " ++ operandText key

/-- The source's names, accepted as aliases of the mnemonics (R58). -/
def aliasNames : List (String × String) :=
  [("init", "INIT"), ("init_with_key", "INIT_KEY"), ("update", "UPDATE"), ("final", "FINAL"), ("hash", "HASH")]

end Sys2Proof.Machine
end

