-- ==== Sys2Proof/Tests/Slice0.lean ====
section
/-! SUPPORT. Small tests with results taken from the spec (95_test_vectors.md, or the rule named), the refusals of
WellFormed, and for every statement of Obligations.lean that has hypotheses a witness that meets them. -/

namespace Sys2Proof.Tests
open Machine

/-! ### Helpers -/

/-- The state an answer goes on in. -/
def after : Answer → State
  | .next s => s
  | .fault _ => State.reset
  | .refused _ => State.reset

/-- The last result an answer hands back. -/
def result (o : Answer) : Option Result := (after o).returned.getLast?

/-- The only context of an answer's state, or the reset one. -/
def context (o : Answer) : Context := ((after o).ctx.head?).getD Context.reset

/-- The engine with the one context `c`. -/
def engine (c : Context) : State := { State.reset with ctx := [c] }

/-- The bytes 0, 1, .., n-1. -/
def upTo (n : Nat) : Bytes := (List.range n).map (BitVec.ofNat 8)

/-- A context with a session of 32-byte digests and `b` bytes 0, 1, .. buffered. -/
def buffered (b : Nat) : Context :=
  { freshContext 32 with
    buf := Vector.ofFn fun i : Fin 128 => if i.val < b then BitVec.ofNat 8 i.val else 0
    buflen := b }

/-- A context in PHASE FINALIZED. -/
def done : Context := { freshContext 32 with phase := .finalized, f0 := 0xFFFFFFFF }

/-- The engine with the host's next event. -/
def withEvent (e : HostEvent) : State := { State.reset with pending := [e] }

/-! ### WellFormed refuses ill-formed commands -/

/-- CTX must be below NCTX (R55). -/
theorem test_wf_refuses_context : (Instr.update 4 []).wf 4 = false ∧ (Instr.update 3 []).wf 4 = true := by decide

/-- A present key must supply its key_length bytes (R60). -/
theorem test_wf_refuses_short_key :
    (Instr.initKey 0 32 2 (some [1])).wf 1 = false ∧ (Instr.hash 32 2 (some []) true (some [1])).wf 1 = false ∧
      (Instr.initKey 0 32 33 (some [])).wf 1 = true := by decide

/-- inlen must fit 64 bits (R53). -/
theorem test_wf_refuses_long_input : (Instr.update 0 (List.replicate (2 ^ 64) 0)).wf 1 = false := by
  simp only [Instr.wf, inputInRange, List.length_replicate, Nat.lt_irrefl, decide_false, Bool.and_false]

/-! ### Decoding (95_test_vectors.md 2.11, NCTX = 4), the words written out from the encoding column of R54 -/

/-- The command the word `w` decodes to, its operands being `IN = 61 62 63` and `KEY = aa`. -/
def decoded (w : Word) : Option Instr := (decode 4 ⟨w, [0x61, 0x62, 0x63], [0xaa]⟩).toOption

theorem test_decode_init :
    decoded 0b00000000_00000000_00010000_0011_0001 = some (.init 3 16) ∧ decoded 0x0000FF31 = some (.init 3 255) := by
  decide

theorem test_decode_initKey :
    decoded 0b00000100_00100001_00100000_0001_0010 = some (.initKey 1 32 33 (some [0xaa])) ∧
      decoded 0x00202002 = some (.initKey 0 32 32 none) := by decide

theorem test_decode_update : decoded 0b00000000_00000000_00000000_0010_0011 = some (.update 2 [0x61, 0x62, 0x63]) := by
  decide

theorem test_decode_final :
    decoded 0b00000000_00000000_00101000_0000_0100 = some (.final 0 40) ∧ decoded 0x00000004 = some (.final 0 0) := by
  decide

theorem test_decode_hash :
    decoded 0b00000111_00100000_00100000_00000101 = some (.hash 32 32 (some [0x61, 0x62, 0x63]) true (some [0xaa])) ∧
      decoded 0x01002005 = some (.hash 32 0 (some [0x61, 0x62, 0x63]) false none) ∧
      decoded 0x00000005 = some (.hash 0 0 none false none) := by decide

/-- The Reserved rows of the table. -/
theorem test_decode_reserved :
    ([0x00002041, 0x00012001, 0x04002001, 0x05202002, 0x00000103, 0x03002015, 0x00000000, 0x00000006, 0x0000000F,
      0x08002001, 0x80000003, 0xFFFFFFFF] : List Word).all (fun w => decoded w == none) = true := by decide

/-- The reason of a refusal is named. -/
theorem test_decode_reasons :
    reservedReason 0x00000006 = .opcode ∧ reservedReason 0x80000003 = .rsv ∧
      reservedReason 0x00000103 = .unusedField := by decide

/-- The worked words of R55, by the encoder. -/
theorem test_encode :
    encodeWord (.init 0 32) = 0x00002001 ∧ encodeWord (.initKey 0 32 32 (some [])) = 0x04202002 ∧
      encodeWord (.update 0 [1]) = 0x00000003 ∧ encodeWord (.final 0 32) = 0x00002004 ∧
      encodeWord (.hash 32 32 (some []) true (some [])) = 0x07202005 := by decide

/-! ### The internal operations (95_test_vectors.md 2.1 to 2.4) -/

theorem test_rotr : rotr32 0x12345678 7 = 0xF02468AC ∧ rotr32 0x00000001 12 = 0x00100000 := by decide

/-- Every addition wraps; the general row. -/
theorem test_mixG :
    mixG 0xFFFFFFFF 0xFFFFFFFF 0xFFFFFFFF 0xFFFFFFFF 0xFFFFFFFF 0xFFFFFFFF =
      ⟨0x000FFFDC, 0x3DB81BE4, 0xDC020DFE, 0xDC000DFF⟩ ∧
    mixG 0x01234567 0x89ABCDEF 0xFEDCBA98 0x76543210 0xDEADBEEF 0xCAFEBABE =
      ⟨0x7770F6A4, 0x10527B2C, 0x6BC8FFA9, 0x8C9725E9⟩ := by decide

theorem test_load_store :
    load32le (#v[0xff, 0x00, 0x00, 0x80] : Vector Byte 4) 0 (by decide) = 0x800000FF ∧
      store32le (Vector.replicate 4 0) 0 0x8C5E8C50 (by decide) = #v[0x50, 0x8c, 0x5e, 0x8c] := by decide

/-- The carry into t[1], and the wrap. -/
theorem test_ctrAdd :
    (ctrAdd { freshContext 32 with t0 := 0xFFFFFFC0 } 64).t0 = 0 ∧
      (ctrAdd { freshContext 32 with t0 := 0xFFFFFFC0 } 64).t1 = 1 ∧
      (ctrAdd { freshContext 32 with t0 := 0xFFFFFFFF, t1 := 0xFFFFFFFF } 1).t1 = 0 := by decide

/-- Salt and personalisation reach words 4 to 7 (2.3, last row). -/
theorem test_formatter_salt :
    ((pbuild 32 false 0 (some #v[0x10, 0x11, 0x12, 0x13, 0x14, 0x15, 0x16, 0x17])
        (some #v[0xa0, 0xa1, 0xa2, 0xa3, 0xa4, 0xa5, 0xa6, 0xa7])).toOption.map fun pb => paramChain (pser pb)) =
      some #v[0x6B08E647, 0xBB67AE85, 0x3C6EF372, 0xA54FF53A, 0x421C436F, 0x8C137D98, 0xBC21780B, 0xFC4668BD] := by
  decide +kernel

/-- PBUILD's checks (2.3): the digest length first; kl ignored when not keyed. -/
theorem test_pbuild_checks :
    pbuild 0 true 33 none none = .error .invalidDigestLength ∧ pbuild 32 true 33 none none = .error .invalidKey ∧
      ((pbuild 32 false 99 none none).toOption.map fun pb => pb.keyLength) = some 0 := by
  refine ⟨rfl, rfl, by decide⟩

/-- COMPRESS, trace E (2.5). -/
theorem test_compress_zero :
    compress (Vector.replicate 8 0) 0 0 0 0 (Vector.replicate 64 0) =
      #v[0x6E26B02A, 0xA6A7800D, 0x51BB7B89, 0x1F01DB51, 0x077B942D, 0x23E6122A, 0xA37D48E1, 0x6E00C75E] := by
  decide +kernel

/-! ### The commands -/

/-- P1, first line. -/
theorem test_init :
    (context (exec (.init 0 32) State.reset)).h =
        #v[0x6B08E647, 0xBB67AE85, 0x3C6EF372, 0xA54FF53A, 0x510E527F, 0x9B05688C, 0x1F83D9AB, 0x5BE0CD19] ∧
      (context (exec (.init 0 32) State.reset)).phase = .ready := by decide +kernel

/-- E11, E18: a failed INIT. -/
theorem test_init_errors :
    result (exec (.init 0 33) (engine (buffered 3))) = some ⟨.error .invalidDigestLength, []⟩ ∧
      (after (exec (.init 0 33) (engine (buffered 3)))).ctx = [buffered 3] ∧
      result (exec (.init 1 32) State.reset) = some ⟨.error .invalidCommand, []⟩ := by decide +kernel

/-- P2, first line. -/
theorem test_initKey :
    let c := context (exec (.initKey 0 32 32 (some (upTo 32))) State.reset)
    c.h[0] = 0x6B08C647 ∧ c.buflen = 64 ∧ c.buf[31] = 31 ∧ c.buf[32] = 0 ∧ c.t0 = 0 ∧
      (after (exec (.initKey 0 32 32 (some (upTo 32))) State.reset)).kstage = Vector.replicate 64 0 := by
  decide +kernel

/-- E5, E6, E7. -/
theorem test_initKey_errors :
    result (exec (.initKey 0 32 16 none) State.reset) = some ⟨.error .invalidKey, []⟩ ∧
      result (exec (.initKey 0 32 0 none) State.reset) = some ⟨.error .invalidKey, []⟩ ∧
      result (exec (.initKey 0 0 33 (some (upTo 33))) State.reset) = some ⟨.error .invalidDigestLength, []⟩ := by
  decide

/-- P2, third line: 29 bytes on 100 buffered ones compress once and leave a stale copy (t, buflen, buf). -/
theorem test_update_overflow :
    let c := context (exec (.update 0 (upTo 29)) (engine (buffered 100)))
    c.t0 = 64 ∧ c.buflen = 65 ∧ c.buf[0] = 64 ∧ c.buf[64] = 28 ∧ c.buf[65] = 65 ∧ c.phase = .ready := by
  decide +kernel

/-- E9, E14; R106: what exactly fills the buffer is copied in. -/
theorem test_update_edges :
    result (exec (.update 0 []) State.reset) = some ⟨.error .invalidState, []⟩ ∧
      result (exec (.update 0 [0]) (engine done)) = some ⟨.error .invalidState, []⟩ ∧
      (context (exec (.update 0 (upTo 28)) (engine (buffered 100)))).buflen = 128 := by decide +kernel

/-- Trace B: the empty message, output_length 16 (P3). -/
theorem test_final :
    result (exec (.final 0 16) (engine (freshContext 32))) =
      some ⟨.ok, [0x69, 0x21, 0x7a, 0x30, 0x79, 0x90, 0x80, 0x94, 0xe1, 0x11, 0x21, 0xd0, 0x42, 0x35, 0x4a, 0x7c]⟩ := by
  decide +kernel

/-- E12, E15: the state is tested before the length. -/
theorem test_final_errors :
    result (exec (.final 0 40) (engine (buffered 3))) = some ⟨.error .invalidDigestLength, []⟩ ∧
      result (exec (.final 0 40) (engine done)) = some ⟨.error .invalidState, []⟩ := by decide +kernel

/-- 2.9: a present key with kl = 0 is no key; "abc". -/
theorem test_hash_abc :
    (result (exec (.hash 32 0 (some [0x61, 0x62, 0x63]) true (some (upTo 32))) State.reset)).map (fun r => r.out.take 8) =
      some [0x50, 0x8c, 0x5e, 0x8c, 0x32, 0x7c, 0x14, 0xe2] := by decide +kernel

/-- 2.9: the argument check first, then the length, then the key. -/
theorem test_hash_errors :
    result (exec (.hash 0 0 none false none) State.reset) = some ⟨.error .invalidArgument, []⟩ ∧
      result (exec (.hash 0 33 (some []) true (some (upTo 33))) State.reset) =
        some ⟨.error .invalidDigestLength, []⟩ ∧
      result (exec (.hash 32 33 (some []) true (some (upTo 33))) State.reset) = some ⟨.error .invalidKey, []⟩ := by
  decide

/-- A reserved word through the host port (P3, last line). -/
theorem test_step_reserved :
    result (step (withEvent (.command ⟨0, [], []⟩))) = some ⟨.error .invalidCommand, []⟩ := by decide

/-- The status codes and PHASE codes (R130, R17). -/
theorem test_codes :
    (Status.error .invalidDigestLength).code = 1 ∧ (Status.error .invalidCommand).code = 5 ∧
      Phase.finalized.code = 2 := by decide

/-- The text syntax, as in P2 and 2.9 (R58). -/
theorem test_text :
    instrText (.update 0 [0x61, 0x62]) = "UPDATE 0, 6162" ∧
      instrText (.hash 32 0 (some []) true none) = "HASH 32, 0, \"\", yes, none" := by decide +kernel

/-- The table's word is the next thing a step runs. -/
theorem test_withFetchWord :
    result (step (State.reset.withFetchWord 32 0x00002001)) = some ⟨.ok, []⟩ := by decide +kernel

/-! ### Witnesses: states and operands that meet the hypotheses of each statement, at the ends of each range -/

/-- The reset engine, and one with a READY context. -/
abbrev s0 : State := State.reset
abbrev s1 : State := engine (freshContext 32)

theorem witness_DecodeOfEncodeIsTheCommand :
    (Instr.init 15 255).wf 16 = true ∧ (Instr.initKey 0 32 32 (some (upTo 32))).wf 1 = true ∧
      (Instr.update 0 [1]).wf 1 = true ∧ (Instr.final 0 0).wf 1 = true ∧
      (Instr.hash 255 255 (some []) false none).wf 1 = true := by decide

theorem witness_EncodeOfDecodedWordIsTheWord : decode 1 ⟨0x00002004, [], []⟩ = .ok (.final 0 32) := rfl

theorem witness_OpcodeRowsAreDisjoint : rowInit ∈ opRows ∧ rowInit.selects 0x00002001 = true := by decide

/-- One word for each reason of R56; and CTX = NCTX beside CTX = NCTX - 1. -/
theorem witness_ReservedWordsExactly :
    decode 4 ⟨0x00000006, [], []⟩ = .error .opcode ∧ decode 4 ⟨0x08002001, [], []⟩ = .error .rsv ∧
      decode 4 ⟨0x03002015, [], []⟩ = .error .unusedField ∧ decode 4 ⟨0x00002041, [], []⟩ = .error .contextIndex ∧
      decode 4 ⟨0x00002031, [], []⟩ = .ok (.init 3 32) ∧
      (withEvent (.command ⟨0, [], []⟩)).pending = .command ⟨0, [], []⟩ :: [] ∧
      decode (withEvent (.command ⟨0, [], []⟩)).ctx.length ⟨0, [], []⟩ = .error .opcode :=
  ⟨rfl, rfl, rfl, rfl, rfl, rfl, rfl⟩

theorem witness_StepRunsTheDecodedCommand :
    (withEvent (.command ⟨0x00002001, [], []⟩)).pending = .command ⟨0x00002001, [], []⟩ :: [] ∧
      decode (withEvent (.command ⟨0x00002001, [], []⟩)).ctx.length ⟨0x00002001, [], []⟩ = .ok (.init 0 32) :=
  ⟨rfl, rfl⟩

theorem witness_ResetEventStartsAfresh : (withEvent .reset).pending = .reset :: [] := rfl

/-- A READY and a FINALIZED context, a command pending. -/
theorem witness_StepKeepsInvariant :
    let s : State := { s0 with ctx := [freshContext 32, done], pending := [.command ⟨0x00002004, [], []⟩] }
    s.Inv ∧ step s = .next (after (step s)) := by
  have zero : ∀ i : Fin 64, (Vector.replicate 64 (0 : Byte))[i] = 0 := by decide
  refine ⟨⟨by decide, by decide, ?_, ⟨fun h => (by cases h), fun h => (by cases h)⟩, zero⟩, rfl⟩
  intro c hc
  simp only [List.mem_cons, List.not_mem_nil, or_false] at hc
  rcases hc with rfl | rfl
  · exact ⟨fun _ => ⟨by decide, by decide, rfl, rfl, rfl⟩, fun h => (by cases h)⟩
  · refine ⟨fun h => (by cases h), fun _ => ⟨rfl, rfl, rfl, by decide, by decide +kernel⟩⟩

theorem witness_ResetMeetsInvariant : 1 ≤ 1 ∧ 1 ≤ 16 ∧ 16 ≤ 16 := by decide

/-- n = 1 and 32 succeed, n = 0 and 33 fail. -/
theorem witness_InitStartsFreshSession :
    (0 : Fin 16).val < s0.ctx.length ∧ (1 ≤ (1 : Fin 256).val ∧ (1 : Fin 256).val ≤ 32) ∧
      (1 ≤ (32 : Fin 256).val ∧ (32 : Fin 256).val ≤ 32) ∧ (0 : Fin 256).val = 0 ∧ 32 < (33 : Fin 256).val := by decide

/-- kl = 1 and 32 with just enough key bytes; kl = 0 and 33; no key. -/
theorem witness_InitKeyBuffersPaddedKey :
    (0 : Fin 16).val < s0.ctx.length ∧ (1 : Fin 256).val ≤ ([0xaa] : Bytes).length ∧
      (32 : Fin 256).val ≤ (upTo 32).length ∧ 1 ≤ (1 : Fin 256).val ∧ (32 : Fin 256).val ≤ 32 ∧
      (0 : Fin 256).val = 0 ∧ 32 < (33 : Fin 256).val := by decide

theorem witness_ShortKeyIsAnError :
    (1 ≤ (32 : Fin 256).val ∧ (32 : Fin 256).val ≤ 32) ∧ (1 ≤ (1 : Fin 256).val ∧ (1 : Fin 256).val ≤ 32) ∧
      (0 : Fin 16).val < s0.ctx.length ∧ (upTo 31).length < (32 : Fin 256).val ∧
      ([] : Bytes).length < (1 : Fin 256).val := by decide

/-- Exactly full, and empty input. -/
theorem witness_UpdateThatFitsIsCopiedIn :
    (engine (buffered 100)).ctx[(0 : Fin 16).val]? = some (buffered 100) ∧ (buffered 100).phase = .ready ∧
      (buffered 100).buflen + (upTo 28).length ≤ 128 ∧ (buffered 128).buflen + ([] : Bytes).length ≤ 128 :=
  ⟨rfl, rfl, by decide, by decide⟩

/-- One byte too many, on a buffer with room and on a full one. -/
theorem witness_UpdateThatOverflowsCompressesFirstHalf :
    (engine (buffered 100)).ctx[(0 : Fin 16).val]? = some (buffered 100) ∧ (buffered 100).phase = .ready ∧
      (buffered 100).buflen ≤ 128 ∧ 128 < (buffered 100).buflen + (upTo 29).length ∧
      (buffered 128).buflen ≤ 128 ∧ 128 < (buffered 128).buflen + (upTo 1).length :=
  ⟨rfl, rfl, by decide, by decide, by decide, by decide⟩

/-- Also of UpdatesDependOnTheStreamOnly. -/
theorem witness_UpdateCompletesAndCountsBlocks :
    (engine (buffered 128)).ctx[(0 : Fin 16).val]? = some (buffered 128) ∧ (buffered 128).phase = .ready ∧
      (buffered 128).buflen ≤ 128 := ⟨rfl, rfl, by decide⟩

theorem witness_UpdatesDependOnTheStreamOnly :
    s1.ctx[(0 : Fin 16).val]? = some (freshContext 32) ∧ (freshContext 32).phase = .ready ∧
      (freshContext 32).buflen ≤ 128 := ⟨rfl, rfl, by decide⟩

/-- buflen 0 and 64, n = 0 and 32. -/
theorem witness_FinalOnOneBlock :
    s1.ctx[(0 : Fin 16).val]? = some (freshContext 32) ∧ (freshContext 32).phase = .ready ∧
      (freshContext 32).buflen ≤ 64 ∧ (buffered 64).buflen ≤ 64 ∧ (0 : Fin 256).val ≤ 32 ∧ (32 : Fin 256).val ≤ 32 :=
  ⟨rfl, rfl, by decide, by decide, by decide, by decide⟩

/-- buflen 65 and 128. -/
theorem witness_FinalOnTwoBlocks :
    (engine (buffered 65)).ctx[(0 : Fin 16).val]? = some (buffered 65) ∧ (buffered 65).phase = .ready ∧
      64 < (buffered 65).buflen ∧ (buffered 65).buflen ≤ 128 ∧ 64 < (buffered 128).buflen ∧
      (buffered 128).buflen ≤ 128 ∧ (32 : Fin 256).val ≤ 32 :=
  ⟨rfl, rfl, by decide, by decide, by decide, by decide, by decide⟩

theorem witness_FinalReturnsAPrefix :
    s1.ctx[(0 : Fin 16).val]? = some (freshContext 32) ∧ (freshContext 32).phase = .ready ∧
      (0 : Fin 256).val ≤ 32 := ⟨rfl, rfl, by decide⟩

theorem witness_SecondFinalIsRefused :
    exec (.final 0 0) s1 = .next (after (exec (.final 0 0) s1)) ∧
      (after (exec (.final 0 0) s1)).returned = s1.returned ++ [⟨.ok, []⟩] := ⟨rfl, rfl⟩

/-- Unkeyed by an absent key and by kl = 0; keyed with kl = 1 and 32. -/
theorem witness_HashComputesTheReference :
    1 ≤ (1 : Fin 256).val ∧ (32 : Fin 256).val ≤ 32 ∧ (0 : Fin 256).val = 0 ∧
      (1 : Fin 256).val ≤ ([0xaa] : Bytes).length ∧ (32 : Fin 256).val ≤ (upTo 32).length := by decide

/-- The first command fails (clause 1), and a whole session (clause 2), each step from where the last one ended. -/
theorem witness_HashEqualsTheSessionItComposes :
    (0 : Fin 16).val < s0.ctx.length ∧
      exec (.init 0 33) s0 = .next (s0.withError .invalidDigestLength) ∧
      ∃ a b c r, exec (.init 0 32) s0 = .next a ∧ a.returned = s0.returned ++ [⟨.ok, []⟩] ∧
        exec (.update 0 []) a = .next b ∧ exec (.final 0 32) b = .next c ∧ c.returned = b.returned ++ [r] :=
  ⟨by decide, rfl, _, _, _, _, rfl, rfl, rfl, rfl, rfl⟩

theorem witness_AbsorbHoldsTheStream : (freshContext 32).Holds (freshChain 32 0) [] :=
  ⟨rfl, rfl, rfl, rfl, rfl, rfl, rfl, fun i hi => absurd hi (Nat.not_lt_zero i.val)⟩

theorem witness_UnkeyedSessionComputesTheReference :
    (0 : Fin 16).val < s0.ctx.length ∧ 1 ≤ (1 : Fin 256).val ∧ (32 : Fin 256).val ≤ 32 ∧ (0 : Fin 256).val ≤ 32 := by
  decide

theorem witness_KeyedSessionComputesTheReference :
    (0 : Fin 16).val < s0.ctx.length ∧ 1 ≤ (1 : Fin 256).val ∧ (32 : Fin 256).val ≤ 32 ∧
      (32 : Fin 256).val ≤ (upTo 32).length := by decide

theorem witness_KeyStaysInBufAfterEmptySession :
    (1 ≤ (32 : Fin 256).val ∧ (32 : Fin 256).val ≤ 32) ∧ (32 : Fin 256).val ≤ (upTo 32).length ∧
      (0 : Fin 256).val ≤ 32 ∧ (0 : Fin 16).val < s0.ctx.length ∧
      ∃ t u, exec (.initKey 0 32 32 (some (upTo 32))) s0 = .next t ∧ exec (.final 0 0) t = .next u :=
  ⟨by decide, by decide, by decide, by decide, _, _, rfl, rfl⟩

/-- Every error is the first one of some command, and some command has none. -/
theorem witness_EveryCommandReportsItsFirstError :
    (Instr.init 1 0).firstError s0 = some .invalidCommand ∧
      (Instr.hash 0 33 none true (some [])).firstError s0 = some .invalidArgument ∧
      (Instr.final 0 40).firstError s0 = some .invalidState ∧
      (Instr.initKey 0 0 33 none).firstError s0 = some .invalidDigestLength ∧
      (Instr.hash 32 33 (some []) true (some [])).firstError s0 = some .invalidKey ∧
      (Instr.initKey 0 32 32 (some (upTo 31))).firstError s0 = some .invalidKey ∧
      (Instr.initKey 0 32 32 (some (upTo 32))).firstError s0 = none ∧ (Instr.final 0 0).firstError s1 = none := by decide

/-- Each of the five errors ends some command. -/
theorem witness_EachErrorHasItsCommands :
    exec (.final 0 33) s1 = .next (s1.withError .invalidDigestLength) ∧
      exec (.hash 32 33 (some []) true (some [])) s0 = .next (s0.withError .invalidKey) ∧
      exec (.hash 0 0 none false none) s0 = .next (s0.withError .invalidArgument) ∧
      exec (.update 0 []) s0 = .next (s0.withError .invalidState) ∧
      exec (.init 15 32) s0 = .next (s0.withError .invalidCommand) ∧
      (s0.withError .invalidCommand).returned = s0.returned ++ [⟨.error .invalidCommand, []⟩] :=
  ⟨rfl, rfl, rfl, rfl, rfl, rfl⟩

/-- Two different keys that are too long, and two that are too short. -/
theorem witness_ErrorsReadNoOperandByte :
    (Instr.initKey 0 32 33 (some (upTo 33))).blank = (Instr.initKey 0 32 33 (some (List.replicate 33 9))).blank ∧
      exec (.initKey 0 32 33 (some (upTo 33))) s0 = .next (s0.withError .invalidKey) ∧
      (Instr.initKey 0 32 2 (some [1])).blank = (Instr.initKey 0 32 2 (some [2])).blank ∧
      exec (.initKey 0 32 2 (some [1])) s0 = .next (s0.withError .invalidKey) := ⟨by decide, rfl, by decide, rfl⟩

theorem witness_ErrorChangesNothing :
    exec (.init 0 0) s0 = .next (s0.withError .invalidDigestLength) ∧
      (s0.withError .invalidDigestLength).returned = s0.returned ++ [⟨.error .invalidDigestLength, []⟩] := ⟨rfl, rfl⟩

theorem witness_PhaseTransitionTable :
    s0.ctx[(0 : Fin 16).val]? = some Context.reset ∧ Context.reset.phase ≠ .ready ∧
      s1.ctx[(0 : Fin 16).val]? = some (freshContext 32) ∧ (freshContext 32).phase = .ready ∧
      (32 : Fin 256).val ≤ 32 ∧ 32 < (33 : Fin 256).val ∧ (1 : Fin 256).val ≤ ([0xaa] : Bytes).length :=
  ⟨rfl, by decide, rfl, rfl, by decide, by decide, by decide⟩

theorem witness_OnlyInitMakesAContextReady :
    exec (.init 0 32) s0 = .next (after (exec (.init 0 32) s0)) ∧ s0.ctx[0]? = some Context.reset ∧
      (after (exec (.init 0 32) s0)).ctx[0]? = some (context (exec (.init 0 32) s0)) ∧
      Context.reset.phase ≠ .ready ∧ (context (exec (.init 0 32) s0)).phase = .ready :=
  ⟨rfl, rfl, rfl, by decide, rfl⟩

theorem witness_CommandTouchesOnlyWhatItNames :
    exec (.update 0 [1]) s1 = .next (after (exec (.update 0 [1]) s1)) ∧
      exec (.hash 32 0 none true none) s1 = .next (s1.withError .invalidArgument) := ⟨rfl, rfl⟩

theorem witness_CommandsToDifferentContextsCommute :
    (Instr.init 0 32).names = some 0 ∧ (Instr.update 1 []).names ≠ some 0 ∧
      (Instr.hash 32 0 none true none).names ≠ some 0 := by decide

/-- A READY context whose buffer holds bytes beyond `buflen` beside one whose buffer is zero there. -/
theorem witness_ResultsIgnoreUnspecifiedFields :
    (engine { freshContext 32 with buf := Vector.replicate 128 7 }).Alike s1 :=
  ⟨.cons ⟨rfl, fun _ => ⟨rfl, rfl, rfl, rfl, rfl, rfl, rfl, fun i hi => absurd hi (Nat.not_lt_zero i.val)⟩⟩ .nil,
    rfl, rfl⟩

/-- Offset 28 is the last one of a 32-byte space; also of StoreWritesFourBytes. -/
theorem witness_LoadIsLittleEndian : 0 + 3 < 4 ∧ 28 + 3 < 32 := by decide

theorem witness_StoreWritesFourBytes : 28 + 3 < 32 ∧ 27 < 32 ∧ (27 < 28 ∨ 28 + 3 < 27) := by decide

theorem witness_CounterAddsModulo64Bits : 0 ≤ 128 ∧ 128 ≤ 128 := by decide

theorem witness_RotationMovesBits : 1 ≤ 7 ∧ 7 ≤ 31 ∧ 31 < 32 := by decide

theorem witness_OperationsOfOneHalfCommute :
    ((0 : Fin 8).val < 4 ∧ (3 : Fin 8).val < 4) ∧ (4 ≤ (4 : Fin 8).val ∧ 4 ≤ (7 : Fin 8).val) := by decide

theorem witness_BuilderChecksAndHardwires :
    (0 : Fin 256).val = 0 ∧ 32 < (33 : Fin 256).val ∧ (1 ≤ (32 : Fin 256).val ∧ (32 : Fin 256).val ≤ 32) := by decide

theorem witness_ParameterBlockWords :
    pbuild (32 : Fin 256).val true (32 : Fin 256).val none none =
      .ok ⟨32, 32, 1, 1, 0, 0, 0, 0, Vector.replicate 8 0, Vector.replicate 8 0⟩ := rfl

theorem witness_DigestBytesAreLittleEndian : 0 < 32 ∧ 31 < 32 := by decide

end Sys2Proof.Tests
end

section
/-! PROOFS of the state family (10_state.md): what a READY context holds of its stream, what a command and a step can
do, the invariant of the engine, the frame of a command, reset. -/

namespace Sys2Proof.Machine

/-! ### What a READY context holds of its stream (R18 (d) to (f)) -/

/-- A context that holds a stream tracks it: `Holds` names the one buffer length of R18 (d), `Tracks` any that leaves
whole blocks compressed. -/
theorem Context.Holds.tracks {c : Context} {h0 : Vector Word 8} {S : Bytes} (H : c.Holds h0 S) : c.Tracks h0 S := by
  obtain ⟨_, hf0, hf1, _, hb, hcount, hchain, hvalid⟩ := H
  obtain ⟨hwhole, hwithin, hroom⟩ := bufferedOf_facts S.length
  rw [← hb] at hwhole hwithin hroom
  exact ⟨hf0, hf1, hroom, hwithin, hwhole, hcount, hchain, fun i hi hlt => hvalid ⟨i, hi⟩ hlt⟩

/-- A READY context that tracks a stream with the buffer length of R18 (d) holds it. -/
theorem Context.Tracks.holds {c : Context} {h0 : Vector Word 8} {S : Bytes} (t : c.Tracks h0 S)
    (hphase : c.phase = .ready) (hnode : c.lastNode = false) (hb : c.buflen = bufferedOf S.length) : c.Holds h0 S :=
  ⟨hphase, t.flag0, t.flag1, hnode, hb, t.count, t.chain, fun i hlt => t.valid i i.isLt hlt⟩

/-- The buffer length of R18 (d) follows the stream: `len` more bytes, less 64 for each block compressed. -/
theorem bufferedOf_add (A len : Nat) :
    bufferedOf (A + len) + 64 * turnsOf (bufferedOf A) len = bufferedOf A + len := by
  simp only [bufferedOf, turnsOf]
  split_ifs <;> omega

/-- ABSORB leaves the buffer length that R18 (d) gives for the longer stream. -/
theorem absorb_buflen_eq_bufferedOf {c : Context} {A : Nat} (hb : c.buflen = bufferedOf A) (data : Bytes) :
    (absorb c data).buflen = bufferedOf (A + data.length) := by
  have hroom : c.buflen ≤ 128 := hb ▸ (bufferedOf_facts A).2.2
  have hcounts := (absorb_counts c data hroom).1
  rw [hb] at hcounts
  exact Nat.add_right_cancel (hcounts.trans (bufferedOf_add A data.length).symm)

/-- Settles O25: every turn of the loop keeps what the context tracks, and the blocks counted give R18 (d). -/
theorem absorbHoldsTheStream : Obligations.AbsorbHoldsTheStream := by
  intro c h0 S data H
  have htracks := H.tracks
  obtain ⟨hphase, _, _, hnode, hb, _⟩ := H
  refine (htracks.absorb data).holds ((absorb_phase c data).trans hphase) ((absorb_lastNode c data).trans hnode) ?_
  rw [List.length_append]
  exact absorb_buflen_eq_bufferedOf hb data

/-! ### What a command and a step can do: one inversion each -/

/-- Everything a command can end in, errors included, with the checks that let it succeed. -/
inductive Effect (s : State) : Instr → State → Prop
  | error (i : Instr) (e : CmdError) : Effect s i (s.raise e)
  | init (ctx : Fin 16) (n : Fin 256) (hctx : ctx.val < s.ctx.length) (hn : 1 ≤ n.val ∧ n.val ≤ 32) :
      Effect s (.init ctx n) ({ s with ctx := s.ctx.set ctx.val (freshContext n.val) }.replyOk [])
  | initKey (ctx : Fin 16) (n kl : Fin 256) (k : Bytes) (hctx : ctx.val < s.ctx.length)
      (hn : 1 ≤ n.val ∧ n.val ≤ 32) (hkl : 1 ≤ kl.val ∧ kl.val ≤ 32) (hk : kl.val ≤ k.length) :
      Effect s (.initKey ctx n kl (some k)) ({ s with
        ctx := s.ctx.set ctx.val (keyedContext n.val kl.val k)
        kstage := Vector.replicate 64 0 }.replyOk [])
  | update (ctx : Fin 16) (x : Bytes) (c : Context) (hc : s.ctx[ctx.val]? = some c) (hphase : c.phase = .ready) :
      Effect s (.update ctx x) ({ s with ctx := s.ctx.set ctx.val (absorb c x) }.replyOk [])
  | final (ctx : Fin 16) (n : Fin 256) (c : Context) (hc : s.ctx[ctx.val]? = some c) (hphase : c.phase = .ready)
      (hn : n.val ≤ 32) :
      Effect s (.final ctx n) ({ s with ctx := s.ctx.set ctx.val (finished c) }.replyOk
        ((serializeDigest (finished c).h).toList.take n.val))
  | hash (n kl : Fin 256) (M : Bytes) (key : Option Bytes) (r : Keyed) (hn : 1 ≤ n.val ∧ n.val ≤ 32)
      (hr : hashStart s n.val kl.val key = .ok r) :
      Effect s (.hash n kl (some M) true key) ({ s with
        scr := finished (absorb r.context M)
        kstage := r.kstage }.replyOk ((serializeDigest (finished (absorb r.context M)).h).toList.take n.val))

/-- What `exec` answers is one of the effects of its command. -/
theorem exec_effect {i : Instr} {s t : State} (h : exec i s = .next t) : Effect s i t := by
  have ends : ∀ {u : State}, exec i s = .next u → u = t := fun hu => Host.Outcome.next.inj (hu.symm.trans h)
  cases i with
  | init ctx n =>
    obtain ⟨e, he⟩ | ⟨hctx, h1, h32, ho⟩ := execInit_cases ctx n s
    · exact ends he ▸ .error _ e
    · exact ends ho ▸ .init ctx n hctx ⟨h1, h32⟩
  | initKey ctx n kl key =>
    obtain ⟨e, he⟩ | ⟨k, rfl, hctx, h1, h32, hk1, hk32, hk, ho⟩ := execInitKey_cases ctx n kl key s
    · exact ends he ▸ .error _ e
    · exact ends ho ▸ .initKey ctx n kl k hctx ⟨h1, h32⟩ ⟨hk1, hk32⟩ hk
  | update ctx x =>
    obtain ⟨e, he⟩ | ⟨c, hc, hphase, ho⟩ := execUpdate_cases ctx x s
    · exact ends he ▸ .error _ e
    · exact ends ho ▸ .update ctx x c hc hphase
  | final ctx n =>
    obtain ⟨e, he⟩ | ⟨c, hc, hphase, hn, ho⟩ := execFinal_cases ctx n s
    · exact ends he ▸ .error _ e
    · exact ends ho ▸ .final ctx n c hc hphase hn
  | hash n kl input outp key =>
    obtain ⟨e, he⟩ | ⟨M, r, rfl, rfl, h1, h32, hr, _, ho⟩ := execHash_cases n kl input outp key s
    · exact ends he ▸ .error _ e
    · exact ends ho ▸ .hash n kl M key r ⟨h1, h32⟩ hr

/-- A step idles, resets, refuses a reserved word or runs the command decoded; the event is taken first. -/
theorem step_cases {s t : State} (h : step s = .next t) :
    (s.pending = [] ∧ t = s) ∨
    (∃ rest, s.pending = .reset :: rest ∧ t = resetEvent { s with pending := rest }) ∨
    (∃ c rest r, s.pending = .command c :: rest ∧ decode s.ctx.length c = .error r ∧
      t = { s with pending := rest }.raise .invalidCommand) ∨
    (∃ c rest i, s.pending = .command c :: rest ∧ decode s.ctx.length c = .ok i ∧
      exec i { s with pending := rest } = .next t) := by
  unfold step at h
  cases hp : s.pending with
  | nil =>
    rw [hp] at h
    exact .inl ⟨rfl, (Host.Outcome.next.inj h).symm⟩
  | cons e rest =>
    rw [hp] at h
    cases e with
    | reset => exact .inr (.inl ⟨rest, rfl, (Host.Outcome.next.inj h).symm⟩)
    | command c =>
      simp only [takeEvent, runCommand] at h
      cases hd : decode s.ctx.length c with
      | error r =>
        rw [hd] at h
        exact .inr (.inr (.inl ⟨c, rest, r, rfl, hd, (Host.Outcome.next.inj h).symm⟩))
      | ok i =>
        rw [hd] at h
        exact .inr (.inr (.inr ⟨c, rest, i, rfl, hd, h⟩))

/-! ### The invariant of a context (R18), operation by operation -/

theorem Context.ReadyInv.inv {c : Context} (h : c.ReadyInv) (hphase : c.phase = .ready) : c.Inv :=
  ⟨fun _ => h, fun hf => absurd (hphase.symm.trans hf) (by decide)⟩

theorem Context.FinalizedInv.inv {c : Context} (h : c.FinalizedInv) (hphase : c.phase = .finalized) : c.Inv :=
  ⟨fun hr => absurd (hphase.symm.trans hr) (by decide), fun _ => h⟩

theorem Context.reset_inv : Context.reset.Inv :=
  ⟨fun h => (by cases h), fun h => (by cases h)⟩

theorem freshContext_readyInv (n : Nat) : (freshContext n).ReadyInv :=
  ⟨Nat.zero_le _, rfl, rfl, rfl, rfl⟩

theorem keyedContext_readyInv (n kl : Nat) (key : Bytes) : (keyedContext n kl key).ReadyInv :=
  ⟨(by decide : 64 ≤ 128), rfl, rfl, rfl, rfl⟩

/-- ABSORB counts whole blocks and keeps the flags. -/
theorem Context.ReadyInv.absorb {c : Context} (h : c.ReadyInv) (data : Bytes) : (absorb c data).ReadyInv := by
  obtain ⟨hroom, hwhole, hf0, hf1, hnode⟩ := h
  have hcount := (absorb_counts c data hroom).2
  refine ⟨absorb_buflen_le c data hroom, ?_, ?_, ?_, ?_⟩
  · rw [hcount]; omega
  · rw [absorb_f0, hf0]
  · rw [absorb_f1, hf1]
  · rw [absorb_lastNode, hnode]

/-- The first part of FINAL keeps the flag f[1] and last_node (R108). -/
@[simp] theorem drainBlock_f1 (c : Context) : (drainBlock c).f1 = c.f1 := by
  unfold drainBlock; split <;> rfl

@[simp] theorem drainBlock_lastNode (c : Context) : (drainBlock c).lastNode = c.lastNode := by
  unfold drainBlock; split <;> rfl

theorem drainBlock_buflen (c : Context) :
    (drainBlock c).buflen = if 64 < c.buflen then c.buflen - 64 else c.buflen := by
  unfold drainBlock; split <;> rfl

theorem drainBlock_buflen_le {c : Context} (h : c.buflen ≤ 128) : (drainBlock c).buflen ≤ 64 := by
  rw [drainBlock_buflen]; split <;> omega

/-- The zero padding of the last block reaches the end of the buffer (R108). -/
theorem lastBlock_buf_zero (c : Context) (i : Fin 128) (hi : c.buflen ≤ i.val) : (lastBlock c).buf[i] = 0 := by
  have hlt := i.isLt
  simp only [Fin.getElem_fin, lastBlock_buf]
  rw [getElem_writeBytes_in _ _ _ _ hlt hi (by rw [zeros_length]; omega)]
  exact List.getElem_replicate _

/-- FINAL turns the READY invariant into the FINALIZED one (R18, last sentence). -/
theorem Context.ReadyInv.finished {c : Context} (h : c.ReadyInv) : (finished c).FinalizedInv := by
  obtain ⟨hroom, _, _, hf1, hnode⟩ := h
  have hnode' : (drainBlock c).lastNode = false := (drainBlock_lastNode c).trans hnode
  refine ⟨rfl, ?_, hnode', drainBlock_buflen_le hroom, lastBlock_buf_zero (drainBlock c)⟩
  calc (lastBlock (drainBlock c)).f1
      = if (drainBlock c).lastNode then flagSet else (drainBlock c).f1 := lastBlock_f1 _
    _ = 0 := by rw [hnode', drainBlock_f1, hf1]; rfl

/-- HASH starts from a session that meets the invariant, with KSTAGE as it was or erased. -/
theorem hashStart_readyInv {s : State} {n kl : Nat} {key : Option Bytes} {r : Keyed}
    (h : hashStart s n kl key = .ok r) :
    r.context.ReadyInv ∧ (r.kstage = s.kstage ∨ r.kstage = Vector.replicate 64 0) := by
  obtain ⟨e, he⟩ | ⟨_, _, _, ho⟩ | ⟨k, _, _, _, _, _, _, ho⟩ := hashStart_cases s n kl key
  · rw [he] at h
    cases h
  · cases Except.ok.inj (ho.symm.trans h)
    exact ⟨freshContext_readyInv n, .inl rfl⟩
  · cases Except.ok.inj (ho.symm.trans h)
    exact ⟨keyedContext_readyInv n kl k, .inr rfl⟩

/-! ### The invariant of the engine -/

/-- KSTAGE after ERASE and after reset. -/
theorem replicate_zero_erased (i : Fin 64) : (Vector.replicate 64 (0 : Byte))[i] = 0 :=
  Vector.getElem_replicate i.isLt

/-- Settles O11. -/
theorem resetMeetsInvariant : Obligations.ResetMeetsInvariant := by
  intro nctx h1 h16
  have hlen : (State.resetWith nctx).ctx.length = nctx := List.length_replicate
  refine ⟨hlen.symm ▸ h1, hlen.symm ▸ h16, fun c hc => ?_, Context.reset_inv, replicate_zero_erased⟩
  rw [List.eq_of_mem_replicate hc]
  exact Context.reset_inv

theorem State.Inv.erased {s : State} (h : s.Inv) : s.KeyErased := by
  obtain ⟨_, _, _, _, herased⟩ := h
  exact herased

/-- A READY context found by its index meets R18 (a) to (c). -/
theorem State.Inv.readyAt {s : State} (h : s.Inv) {k : Nat} {c : Context} (hc : s.ctx[k]? = some c)
    (hphase : c.phase = .ready) : c.ReadyInv := by
  obtain ⟨_, _, hctx, _, _⟩ := h
  exact (hctx c (List.mem_of_getElem? hc)).1 hphase

/-- Replacing one context by one that meets the invariant keeps the engine's; KSTAGE may be any erased block. -/
theorem State.Inv.setContext {s : State} (h : s.Inv) (k : Nat) {d : Context} (hd : d.Inv) {ks : Vector Byte 64}
    (hks : ∀ i : Fin 64, ks[i] = 0) : { s with ctx := s.ctx.set k d, kstage := ks }.Inv := by
  obtain ⟨h1, h16, hctx, hscr, _⟩ := h
  have hlen : (s.ctx.set k d).length = s.ctx.length := List.length_set
  refine ⟨hlen.symm ▸ h1, hlen.symm ▸ h16, fun c hc => ?_, hscr, hks⟩
  obtain hmem | rfl := List.mem_or_eq_of_mem_set hc
  · exact hctx c hmem
  · exact hd

/-- Every command keeps the invariant. -/
theorem Effect.keeps_inv {i : Instr} {s t : State} (h : Effect s i t) (hs : s.Inv) : t.Inv := by
  cases h with
  | error e => exact hs
  | init ctx n _ _ => exact hs.setContext _ ((freshContext_readyInv _).inv rfl) hs.erased
  | initKey ctx n kl k _ _ _ _ => exact hs.setContext _ ((keyedContext_readyInv _ _ _).inv rfl) replicate_zero_erased
  | update ctx x c hc hphase =>
    exact hs.setContext _ (((hs.readyAt hc hphase).absorb x).inv ((absorb_phase c x).trans hphase)) hs.erased
  | final ctx n c hc hphase _ => exact hs.setContext _ ((hs.readyAt hc hphase).finished.inv rfl) hs.erased
  | hash n kl M key r _ hr =>
    obtain ⟨hready, hks⟩ := hashStart_readyInv hr
    obtain ⟨h1, h16, hctx, _, herased⟩ := hs
    refine ⟨h1, h16, hctx, (hready.absorb M).finished.inv rfl, ?_⟩
    obtain hks | hks := hks
    · exact hks ▸ herased
    · exact hks ▸ replicate_zero_erased

/-- Settles O10: idling and a refused word keep what the invariant reads, a reset starts it afresh, and every command
keeps it. -/
theorem stepKeepsInvariant : Obligations.StepKeepsInvariant := by
  intro s t hs h
  obtain ⟨_, rfl⟩ | ⟨_, _, rfl⟩ | ⟨_, _, _, _, _, rfl⟩ | ⟨_, _, i, _, _, hi⟩ := step_cases h
  · exact hs
  · obtain ⟨h1, h16, _⟩ := hs
    exact resetMeetsInvariant _ h1 h16
  · exact hs
  · exact (exec_effect hi).keeps_inv hs

/-! ### The frame of a command -/

/-- The part of the frame that every effect has. -/
theorem Effect.frame {i : Instr} {s t : State} (h : Effect s i t) :
    t.ctx.length = s.ctx.length ∧ t.pending = s.pending ∧ (∀ j, i.names ≠ some j → t.ctx[j]? = s.ctx[j]?) ∧
      (i.names ≠ none → t.scr = s.scr) := by
  have other : ∀ (k : Nat) (d : Context) (j : Nat), some k ≠ some j → (s.ctx.set k d)[j]? = s.ctx[j]? :=
    fun k d j hj => List.getElem?_set_ne (fun hkj => hj (congrArg some hkj))
  cases h with
  | error e => exact ⟨rfl, rfl, fun _ _ => rfl, fun _ => rfl⟩
  | init ctx n _ _ => exact ⟨List.length_set, rfl, other _ _, fun _ => rfl⟩
  | initKey ctx n kl k _ _ _ _ => exact ⟨List.length_set, rfl, other _ _, fun _ => rfl⟩
  | update ctx x c _ _ => exact ⟨List.length_set, rfl, other _ _, fun _ => rfl⟩
  | final ctx n c _ _ _ => exact ⟨List.length_set, rfl, other _ _, fun _ => rfl⟩
  | hash n kl M key r _ _ => exact ⟨rfl, rfl, fun _ _ => rfl, fun hn => absurd rfl hn⟩

/-- INIT, UPDATE and FINAL write no KSTAGE: only INIT_KEY and HASH stage a key. -/
theorem Effect.kstage_eq {i : Instr} {s t : State} (h : Effect s i t)
    (hi : (∃ ctx n, i = .init ctx n) ∨ (∃ ctx x, i = .update ctx x) ∨ (∃ ctx n, i = .final ctx n)) :
    t.kstage = s.kstage := by
  obtain ⟨_, _, rfl⟩ | ⟨_, _, rfl⟩ | ⟨_, _, rfl⟩ := hi <;> cases h <;> rfl

/-- Settles O35, by the effects of each command. -/
theorem commandTouchesOnlyWhatItNames : Obligations.CommandTouchesOnlyWhatItNames := by
  intro i s t h
  have he := exec_effect h
  obtain ⟨hlen, hpending, hctx, hscr⟩ := he.frame
  exact ⟨hlen, hpending, hctx, hscr, he.kstage_eq⟩

/-! ### Reset -/

/-- Settles O8. -/
theorem stateAfterReset : Obligations.StateAfterReset := by
  refine ⟨fun nctx => ⟨List.length_replicate, fun c hc => ?_, rfl, replicate_zero_erased, rfl, rfl⟩, rfl⟩
  rw [List.eq_of_mem_replicate hc]
  rfl

end Sys2Proof.Machine
end

section
/-! PROOFS of the memory family (20_memory.md): words read from and written to byte spaces, the bytes of a digest, and
what a step does with the command it takes. -/

namespace Sys2Proof.Machine

/-! ### LOAD32LE and STORE32LE (R32, R33) -/

/-- LOAD32LE puts the four bytes side by side, the byte at `a` lowest. -/
theorem load32le_eq_append {n : Nat} (S : Vector Byte n) (a : Nat) (h : a + 3 < n) :
    load32le S a h = (S[a + 3] ++ S[a + 2] ++ S[a + 1] ++ S[a] : BitVec 32) := by
  apply BitVec.eq_of_getLsbD_eq
  intro i hi
  simp only [load32le, BitVec.getLsbD_or, BitVec.getLsbD_shiftLeft, BitVec.getLsbD_setWidth, BitVec.getLsbD_append]
  grind

/-- The value of a word `x` with a byte `y` put below it. -/
theorem toNat_append_byte {w : Nat} (x : BitVec w) (y : Byte) : (x ++ y).toNat = y.toNat + x.toNat * 2 ^ 8 := by
  rw [BitVec.toNat_append, ← Nat.shiftLeft_add_eq_or_of_lt y.isLt, Nat.shiftLeft_eq, Nat.add_comm]

/-- Settles O38: the bytes lie side by side, so the word's value is their sum. -/
theorem loadIsLittleEndian : Obligations.LoadIsLittleEndian := by
  intro n S a h
  refine ⟨rfl, ?_⟩
  rw [load32le_eq_append, toNat_append_byte, toNat_append_byte, toNat_append_byte]
  omega

/-- The four bytes STORE32LE writes. -/
theorem getElem_store32le_byte {n : Nat} (S : Vector Byte n) (a : Nat) (w : Word) (h : a + 3 < n) (k : Nat)
    (hk : k < 4) : (store32le S a w h)[a + k] = w.extractLsb' (8 * k) 8 := by
  rw [getElem_store32le, if_pos (by omega), Nat.add_sub_cancel_left]

/-- STORE32LE leaves every other byte. -/
theorem getElem_store32le_out {n : Nat} (S : Vector Byte n) (a : Nat) (w : Word) (h : a + 3 < n) (j : Nat) (hj : j < n)
    (hout : j < a ∨ a + 3 < j) : (store32le S a w h)[j] = S[j] := by
  rw [getElem_store32le, if_neg (by omega)]

/-- A word is its four bytes side by side. -/
theorem append_bytes_eq (w : Word) :
    (w.extractLsb' 24 8 ++ w.extractLsb' 16 8 ++ w.extractLsb' 8 8 ++ w.extractLsb' 0 8 : BitVec 32) = w := by
  rw [BitVec.extractLsb'_append_extractLsb'_eq_extractLsb' (by decide),
    BitVec.extractLsb'_append_extractLsb'_eq_extractLsb' (by decide),
    BitVec.extractLsb'_append_extractLsb'_eq_extractLsb' (by decide)]
  exact BitVec.extractLsb'_eq_self

/-- LOAD32LE reads back what STORE32LE wrote at the same offset. -/
theorem load32le_store32le {n : Nat} (S : Vector Byte n) (a : Nat) (w : Word) (h : a + 3 < n) :
    load32le (store32le S a w h) a h = w := by
  have hlow : (store32le S a w h)[a] = w.extractLsb' 0 8 := getElem_store32le_byte S a w h 0 (by decide)
  rw [load32le_eq_append, getElem_store32le_byte _ _ _ _ 3 (by decide), getElem_store32le_byte _ _ _ _ 2 (by decide),
    getElem_store32le_byte _ _ _ _ 1 (by decide), hlow]
  exact append_bytes_eq w

/-- Settles O39, by the rules of a byte read after a store. -/
theorem storeWritesFourBytes : Obligations.StoreWritesFourBytes := by
  intro n S a w h
  have hbyte := getElem_store32le_byte S a w h
  exact ⟨hbyte 0 (by decide), hbyte 1 (by decide), hbyte 2 (by decide), hbyte 3 (by decide),
    getElem_store32le_out S a w h, load32le_store32le S a w h⟩

/-! ### The bytes of a digest (R34, R109) -/

/-- One turn of the serialization of R109: word `i` goes to `D[4i .. 4i+4)`. -/
def storeDigestWord (h : Vector Word 8) (D : Vector Byte 32) (i : Fin 8) : Vector Byte 32 :=
  store32le D (4 * i.val) h[i] (by omega)

theorem serializeDigest_eq_foldl (h : Vector Word 8) :
    serializeDigest h = (List.finRange 8).foldl (storeDigestWord h) (Vector.replicate 32 0) := rfl

/-- A byte after one turn: it comes from the word stored when it lies in that word's place. -/
theorem getElem_storeDigestWord (h : Vector Word 8) (D : Vector Byte 32) (i : Fin 8) (j : Nat) (hj : j < 32) :
    (storeDigestWord h D i)[j] = if i.val = j / 4 then (h[j / 4]'(by omega)).extractLsb' (8 * (j % 4)) 8 else D[j] := by
  unfold storeDigestWord
  split
  case isTrue hi =>
    have hbyte : j - 4 * i.val = j % 4 := by omega
    rw [getElem_store32le, if_pos (by omega), hbyte]
    simp only [Fin.getElem_fin, hi]
  case isFalse hi => rw [getElem_store32le_out _ _ _ _ _ hj (by omega)]

/-- A byte after any turns: those that store its word all write the same byte, whatever their order. -/
theorem getElem_foldl_storeDigestWord (h : Vector Word 8) (is : List (Fin 8)) (D : Vector Byte 32) (j : Nat)
    (hj : j < 32) :
    (is.foldl (storeDigestWord h) D)[j] =
      if ∃ i ∈ is, i.val = j / 4 then (h[j / 4]'(by omega)).extractLsb' (8 * (j % 4)) 8 else D[j] := by
  induction is generalizing D with
  | nil => simp
  | cons i is ih =>
    rw [List.foldl_cons, ih, getElem_storeDigestWord]
    by_cases hi : i.val = j / 4 <;> simp [hi]

/-- Byte `j` of the serialized digest: every word is stored in some turn. -/
theorem getElem_serializeDigest (h : Vector Word 8) (j : Nat) (hj : j < 32) :
    (serializeDigest h)[j] = (h[j / 4]'(by omega)).extractLsb' (8 * (j % 4)) 8 := by
  simp only [serializeDigest_eq_foldl, getElem_foldl_storeDigestWord]
  exact if_pos ⟨⟨j / 4, by omega⟩, List.mem_finRange _, rfl⟩

/-- Byte `j` of words written out one after the other. -/
theorem getElem?_flatMap_wordBytes (ws : List Word) (j : Nat) :
    (ws.flatMap wordBytes)[j]? = ws[j / 4]?.map fun w => w.extractLsb' (8 * (j % 4)) 8 := by
  induction ws generalizing j with
  | nil => simp
  | cons w ws ih =>
    match j with
    | 0 => rfl
    | 1 => rfl
    | 2 => rfl
    | 3 => rfl
    | j + 4 =>
      have hdiv : (j + 4) / 4 = j / 4 + 1 := by omega
      have hmod : (j + 4) % 4 = j % 4 := by omega
      rw [hdiv, hmod, List.getElem?_cons_succ, ← ih]
      rfl

/-- The 32 bytes are the eight words' bytes in order. -/
theorem serializeDigest_toList (h : Vector Word 8) : (serializeDigest h).toList = digestBytes h := by
  apply List.ext_getElem?
  intro j
  rw [digestBytes, getElem?_flatMap_wordBytes, Vector.getElem?_toList, Vector.getElem?_toList]
  by_cases hj : j < 32
  · rw [Vector.getElem?_eq_getElem hj, Vector.getElem?_eq_getElem (by omega), getElem_serializeDigest]
    rfl
  · rw [Vector.getElem?_eq_none (by omega), Vector.getElem?_eq_none (by omega)]
    rfl

/-- Settles O48. -/
theorem digestBytesAreLittleEndian : Obligations.DigestBytesAreLittleEndian :=
  fun h j hj => ⟨getElem_serializeDigest h j hj, serializeDigest_toList h⟩

/-! ### The host port (R40, R50) -/

/-- A step takes the oldest event the host issued. -/
theorem step_of_pending {s : State} {e : HostEvent} {rest : List HostEvent} (h : s.pending = e :: rest) :
    step s = takeEvent e { s with pending := rest } := by
  rw [step, h]

/-- A command whose word decodes to `i` runs `i`. -/
theorem runCommand_of_decode {s : State} {c : Command} {i : Instr} (h : decode s.ctx.length c = .ok i) :
    runCommand c s = exec i s := by
  rw [runCommand, h]

/-- Settles O6: the event is taken, and the command it holds is run on what is left. -/
theorem stepRunsTheDecodedCommand : Obligations.StepRunsTheDecodedCommand := by
  intro s c rest i hpending hdecode
  calc step s = takeEvent (.command c) { s with pending := rest } := step_of_pending hpending
    _ = runCommand c { s with pending := rest } := rfl
    _ = exec i { s with pending := rest } := runCommand_of_decode hdecode

end Sys2Proof.Machine
end

section
/-! PROOFS of the encoding family (30_encoding.md): a command word is its fields, what each row of the opcode map asks
of them, and what the decoder and the encoder make of them. -/

namespace Sys2Proof
open Machine

/-! ### A word is its fields (R51) -/

/-- The eight fields of a command word, the numbers as bit vectors; a field not named is zero. -/
@[ext] structure Fields where
  op : BitVec 4 := 0
  ctx : BitVec 4 := 0
  nlen : BitVec 8 := 0
  klen : BitVec 8 := 0
  inp : Bool := false
  outp : Bool := false
  keyp : Bool := false
  rsv : BitVec 5 := 0

/-- The fields of a word. -/
def fields (w : Word) : Fields where
  op := w.extractLsb' 0 4
  ctx := w.extractLsb' 4 4
  nlen := w.extractLsb' 8 8
  klen := w.extractLsb' 16 8
  inp := w.getLsbD 24
  outp := w.getLsbD 25
  keyp := w.getLsbD 26
  rsv := w.extractLsb' 27 5

@[simp] theorem toNat_fields_op (w : Word) : (fields w).op.toNat = (opField w).val := rfl
@[simp] theorem toNat_fields_ctx (w : Word) : (fields w).ctx.toNat = (ctxField w).val := rfl
@[simp] theorem toNat_fields_nlen (w : Word) : (fields w).nlen.toNat = (nlenField w).val := rfl
@[simp] theorem toNat_fields_klen (w : Word) : (fields w).klen.toNat = (klenField w).val := rfl
@[simp] theorem toNat_fields_rsv (w : Word) : (fields w).rsv.toNat = (rsvField w).val := rfl
@[simp] theorem fields_inp (w : Word) : (fields w).inp = inpField w := rfl
@[simp] theorem fields_outp (w : Word) : (fields w).outp = outpField w := rfl
@[simp] theorem fields_keyp (w : Word) : (fields w).keyp = keypField w := rfl

/-- The word with given fields: they lie side by side, OP lowest (R51). -/
def Fields.word (f : Fields) : Word :=
  f.rsv ++ BitVec.ofBool f.keyp ++ BitVec.ofBool f.outp ++ BitVec.ofBool f.inp ++ f.klen ++ f.nlen ++ f.ctx ++ f.op

/-- The fields leave no bit of the word out. -/
theorem word_fields (w : Word) : (fields w).word = w := by
  have hbit : ∀ i, BitVec.ofBool (w.getLsbD i) = w.extractLsb' i 1 := fun i => by
    rw [BitVec.getLsbD_eq_extractLsb']
    generalize w.extractLsb' i 1 = b
    revert b; decide
  simp only [Fields.word, fields, hbit, BitVec.extractLsb'_append_extractLsb'_eq_extractLsb']
  exact BitVec.extractLsb'_eq_self

theorem fields_inj {w w' : Word} : fields w = fields w' ↔ w = w' :=
  ⟨fun h => by rw [← word_fields w, h, word_fields], congrArg fields⟩

theorem fields_or (w w' : Word) : fields (w ||| w') =
    { op := (fields w).op ||| (fields w').op
      ctx := (fields w).ctx ||| (fields w').ctx
      nlen := (fields w).nlen ||| (fields w').nlen
      klen := (fields w).klen ||| (fields w').klen
      inp := (fields w).inp || (fields w').inp
      outp := (fields w).outp || (fields w').outp
      keyp := (fields w).keyp || (fields w').keyp
      rsv := (fields w).rsv ||| (fields w').rsv } := by
  simp only [fields, BitVec.extractLsb'_or, BitVec.getLsbD_or]

theorem fields_and (w w' : Word) : fields (w &&& w') =
    { op := (fields w).op &&& (fields w').op
      ctx := (fields w).ctx &&& (fields w').ctx
      nlen := (fields w).nlen &&& (fields w').nlen
      klen := (fields w).klen &&& (fields w').klen
      inp := (fields w).inp && (fields w').inp
      outp := (fields w).outp && (fields w').outp
      keyp := (fields w).keyp && (fields w').keyp
      rsv := (fields w).rsv &&& (fields w').rsv } := by
  simp only [fields, BitVec.extractLsb'_and, BitVec.getLsbD_and]

/-! ### The encoder sets the fields the command uses and no other (R55) -/

/-- A value shifted to bit `a` is read back at its place. -/
theorem extractLsb'_shifted {k : Nat} (x : BitVec k) {a : Nat} (h : a + k ≤ 32) :
    (x.setWidth 32 <<< a).extractLsb' a k = x := by
  apply BitVec.eq_of_getLsbD_eq
  intro i hi
  simp only [BitVec.getLsbD_extractLsb', BitVec.getLsbD_shiftLeft, BitVec.getLsbD_setWidth]
  grind

/-- A value shifted to bit `a` leaves the bits beside its place zero. -/
theorem getLsbD_shifted_beside {k : Nat} (x : BitVec k) {a i : Nat} (h : i < a ∨ a + k ≤ i) :
    (x.setWidth 32 <<< a).getLsbD i = false := by
  simp only [BitVec.getLsbD_shiftLeft, BitVec.getLsbD_setWidth]
  obtain h | h := h
  · simp [h]
  · simp [BitVec.getLsbD_of_ge x (i - a) (by omega)]

/-- So a field beside its place reads zero. -/
theorem extractLsb'_shifted_beside {k : Nat} (x : BitVec k) {a start len : Nat}
    (h : start + len ≤ a ∨ a + k ≤ start) : (x.setWidth 32 <<< a).extractLsb' start len = 0 := by
  apply BitVec.eq_of_getLsbD_eq
  intro i hi
  rw [BitVec.getLsbD_extractLsb', getLsbD_shifted_beside x (by omega)]
  simp

/-- A number's bits as the encoder takes them. -/
theorem ofNat_val_eq_setWidth {k : Nat} (x : Fin (2 ^ k)) :
    BitVec.ofNat 32 x.val = (BitVec.ofFin x).setWidth 32 :=
  BitVec.eq_of_toNat_eq (by rw [BitVec.toNat_ofNat, BitVec.toNat_setWidth]; rfl)

@[simp] theorem fields_ctxBits (ctx : Fin 16) : fields (ctxBits ctx) = { ctx := .ofFin ctx } := by
  have hbits : ctxBits ctx = (BitVec.ofFin (w := 4) ctx).setWidth 32 <<< 4 := by
    rw [ctxBits, ofNat_val_eq_setWidth (k := 4)]
  simp (disch := decide) only [fields, hbits, extractLsb'_shifted, extractLsb'_shifted_beside, getLsbD_shifted_beside]

@[simp] theorem fields_nlenBits (n : Fin 256) : fields (nlenBits n) = { nlen := .ofFin n } := by
  have hbits : nlenBits n = (BitVec.ofFin (w := 8) n).setWidth 32 <<< 8 := by
    rw [nlenBits, ofNat_val_eq_setWidth (k := 8)]
  simp (disch := decide) only [fields, hbits, extractLsb'_shifted, extractLsb'_shifted_beside, getLsbD_shifted_beside]

@[simp] theorem fields_klenBits (kl : Fin 256) : fields (klenBits kl) = { klen := .ofFin kl } := by
  have hbits : klenBits kl = (BitVec.ofFin (w := 8) kl).setWidth 32 <<< 16 := by
    rw [klenBits, ofNat_val_eq_setWidth (k := 8)]
  simp (disch := decide) only [fields, hbits, extractLsb'_shifted, extractLsb'_shifted_beside, getLsbD_shifted_beside]

@[simp] theorem fields_inpBits (p : Bool) : fields (inpBits p) = { inp := p } := by cases p <;> rfl
@[simp] theorem fields_outpBits (p : Bool) : fields (outpBits p) = { outp := p } := by cases p <;> rfl
@[simp] theorem fields_keypBits (p : Bool) : fields (keypBits p) = { keyp := p } := by cases p <;> rfl
@[simp] theorem fields_rowInit_bits : fields rowInit.bits = { op := 1 } := rfl
@[simp] theorem fields_rowInitKey_bits : fields rowInitKey.bits = { op := 2 } := rfl
@[simp] theorem fields_rowUpdate_bits : fields rowUpdate.bits = { op := 3 } := rfl
@[simp] theorem fields_rowFinal_bits : fields rowFinal.bits = { op := 4 } := rfl
@[simp] theorem fields_rowHash_bits : fields rowHash.bits = { op := 5 } := rfl

@[simp] theorem fields_encodeWord_init (ctx : Fin 16) (n : Fin 256) :
    fields (encodeWord (.init ctx n)) = { op := 1, ctx := .ofFin ctx, nlen := .ofFin n } := by
  simp [encodeWord, fields_or]

@[simp] theorem fields_encodeWord_initKey (ctx : Fin 16) (n kl : Fin 256) (key : Option Bytes) :
    fields (encodeWord (.initKey ctx n kl key)) =
      { op := 2, ctx := .ofFin ctx, nlen := .ofFin n, klen := .ofFin kl, keyp := key.isSome } := by
  simp [encodeWord, fields_or]

@[simp] theorem fields_encodeWord_update (ctx : Fin 16) (input : Bytes) :
    fields (encodeWord (.update ctx input)) = { op := 3, ctx := .ofFin ctx } := by
  simp [encodeWord, fields_or]

@[simp] theorem fields_encodeWord_final (ctx : Fin 16) (n : Fin 256) :
    fields (encodeWord (.final ctx n)) = { op := 4, ctx := .ofFin ctx, nlen := .ofFin n } := by
  simp [encodeWord, fields_or]

@[simp] theorem fields_encodeWord_hash (n kl : Fin 256) (input : Option Bytes) (outp : Bool) (key : Option Bytes) :
    fields (encodeWord (.hash n kl input outp key)) =
      { op := 5, nlen := .ofFin n, klen := .ofFin kl, inp := input.isSome, outp := outp, keyp := key.isSome } := by
  simp [encodeWord, fields_or]

/-! ### What a row asks of a word (R54) -/

/-- A row compares the masked word field by field. -/
theorem OpRow.selects_iff {r : OpRow} {w : Word} : r.selects w = true ↔ fields (w &&& r.mask) = fields r.bits := by
  rw [fields_inj, OpRow.selects, beq_iff_eq]

theorem fields_rowInit_mask : fields rowInit.mask =
    { op := .allOnes 4, klen := .allOnes 8, inp := true, outp := true, keyp := true, rsv := .allOnes 5 } := rfl

theorem fields_rowInitKey_mask : fields rowInitKey.mask =
    { op := .allOnes 4, inp := true, outp := true, rsv := .allOnes 5 } := rfl

theorem fields_rowUpdate_mask : fields rowUpdate.mask =
    { op := .allOnes 4, nlen := .allOnes 8, klen := .allOnes 8, inp := true, outp := true, keyp := true,
      rsv := .allOnes 5 } := rfl

theorem fields_rowFinal_mask : fields rowFinal.mask =
    { op := .allOnes 4, klen := .allOnes 8, inp := true, outp := true, keyp := true, rsv := .allOnes 5 } := rfl

theorem fields_rowHash_mask : fields rowHash.mask =
    { op := .allOnes 4, ctx := .allOnes 4, rsv := .allOnes 5 } := rfl

/-- INIT: opcode 1, CTX and NLEN free. -/
theorem selects_rowInit_iff {w : Word} : rowInit.selects w = true ↔
    (opField w).val = 1 ∧ (klenField w).val = 0 ∧ inpField w = false ∧ outpField w = false ∧ keypField w = false ∧
      (rsvField w).val = 0 := by
  simp [OpRow.selects_iff, fields_and, fields_rowInit_mask, BitVec.toNat_eq, -BitVec.reduceAllOnes]

/-- INIT_KEY: opcode 2, CTX, NLEN, KLEN and KEYP free. -/
theorem selects_rowInitKey_iff {w : Word} : rowInitKey.selects w = true ↔
    (opField w).val = 2 ∧ inpField w = false ∧ outpField w = false ∧ (rsvField w).val = 0 := by
  simp [OpRow.selects_iff, fields_and, fields_rowInitKey_mask, BitVec.toNat_eq, -BitVec.reduceAllOnes]

/-- UPDATE: opcode 3, CTX free. -/
theorem selects_rowUpdate_iff {w : Word} : rowUpdate.selects w = true ↔
    (opField w).val = 3 ∧ (nlenField w).val = 0 ∧ (klenField w).val = 0 ∧ inpField w = false ∧ outpField w = false ∧
      keypField w = false ∧ (rsvField w).val = 0 := by
  simp [OpRow.selects_iff, fields_and, fields_rowUpdate_mask, BitVec.toNat_eq, -BitVec.reduceAllOnes]

/-- FINAL: opcode 4, CTX and NLEN free. -/
theorem selects_rowFinal_iff {w : Word} : rowFinal.selects w = true ↔
    (opField w).val = 4 ∧ (klenField w).val = 0 ∧ inpField w = false ∧ outpField w = false ∧ keypField w = false ∧
      (rsvField w).val = 0 := by
  simp [OpRow.selects_iff, fields_and, fields_rowFinal_mask, BitVec.toNat_eq, -BitVec.reduceAllOnes]

/-- HASH: opcode 5, all but CTX and RSV free. -/
theorem selects_rowHash_iff {w : Word} : rowHash.selects w = true ↔
    (opField w).val = 5 ∧ (ctxField w).val = 0 ∧ (rsvField w).val = 0 := by
  simp [OpRow.selects_iff, fields_and, fields_rowHash_mask, BitVec.toNat_eq, -BitVec.reduceAllOnes]

/-- Every row fixes the whole opcode field. -/
theorem OpRow.opField_of_selects {r : OpRow} {w : Word} (hr : r ∈ opRows) (h : r.selects w = true) :
    opField w = opField r.bits := by
  have hmask : ∀ r ∈ opRows, (fields r.mask).op = .allOnes 4 := by decide
  have hop := congrArg Fields.op (OpRow.selects_iff.1 h)
  rw [fields_and] at hop
  simp only [hmask r hr, BitVec.and_allOnes] at hop
  exact congrArg BitVec.toFin hop

/-- Settles O3: the opcodes of the rows differ, and a row fixes the opcode. -/
theorem opcodeRowsAreDisjoint : Obligations.OpcodeRowsAreDisjoint := by
  have hdiffer : ∀ r ∈ opRows, ∀ r' ∈ opRows, opField r.bits = opField r'.bits → r = r' := by decide
  intro w r hr r' hr' h h'
  exact hdiffer r hr r' hr' ((OpRow.opField_of_selects hr h).symm.trans (OpRow.opField_of_selects hr' h'))

/-- A word that selects one row selects no other. -/
theorem OpRow.not_selects_of_selects {r : OpRow} {w : Word} (h : r.selects w = true) (hr : r ∈ opRows) :
    ∀ r' ∈ opRows, r' ≠ r → r'.selects w = false := fun r' hr' hne =>
  Bool.eq_false_iff.2 fun h' => hne (opcodeRowsAreDisjoint w r' hr' r hr h' h)

/-! ### What the decoder reads from a row's words (R55) -/

section
variable {nctx : Nat} {c : Command}

theorem decode_of_rowInit (h : rowInit.selects c.word = true) :
    decode nctx c = inContext nctx c.word (.init (ctxField c.word) (nlenField c.word)) := by
  rw [decode, if_pos h]

theorem decode_of_rowInitKey (h : rowInitKey.selects c.word = true) :
    decode nctx c = inContext nctx c.word (.initKey (ctxField c.word) (nlenField c.word) (klenField c.word)
      (presentIf (keypField c.word) c.key)) := by
  simp (disch := decide) [decode, h, OpRow.not_selects_of_selects h]

theorem decode_of_rowUpdate (h : rowUpdate.selects c.word = true) :
    decode nctx c = inContext nctx c.word (.update (ctxField c.word) c.input) := by
  simp (disch := decide) [decode, h, OpRow.not_selects_of_selects h]

theorem decode_of_rowFinal (h : rowFinal.selects c.word = true) :
    decode nctx c = inContext nctx c.word (.final (ctxField c.word) (nlenField c.word)) := by
  simp (disch := decide) [decode, h, OpRow.not_selects_of_selects h]

theorem decode_of_rowHash (h : rowHash.selects c.word = true) :
    decode nctx c = .ok (.hash (nlenField c.word) (klenField c.word) (presentIf (inpField c.word) c.input)
      (outpField c.word) (presentIf (keypField c.word) c.key)) := by
  simp (disch := decide) [decode, h, OpRow.not_selects_of_selects h]

theorem decode_of_no_row (h : ∀ r ∈ opRows, r.selects c.word = false) :
    decode nctx c = .error (reservedReason c.word) := by
  simp (disch := decide) [decode, h]

end

/-- A word selects no row when each row's demand fails. -/
theorem no_row_iff {w : Word} : (∀ r ∈ opRows, r.selects w = false) ↔
    ¬rowInit.selects w = true ∧ ¬rowInitKey.selects w = true ∧ ¬rowUpdate.selects w = true ∧
      ¬rowFinal.selects w = true ∧ ¬rowHash.selects w = true := by
  simp [opRows]

/-- Everything a word can be: it selects one of the five rows, or none. -/
theorem row_cases (w : Word) : rowInit.selects w = true ∨ rowInitKey.selects w = true ∨ rowUpdate.selects w = true ∨
    rowFinal.selects w = true ∨ rowHash.selects w = true ∨ ∀ r ∈ opRows, r.selects w = false := by
  rw [no_row_iff]
  tauto

/-- A command whose word names a context decodes exactly when the engine has that context. -/
theorem inContext_eq_ok_iff {nctx : Nat} {w : Word} {i j : Instr} :
    inContext nctx w i = .ok j ↔ (ctxField w).val < nctx ∧ i = j := by
  unfold inContext
  split <;> simp [*]

theorem inContext_is_error_iff {nctx : Nat} {w : Word} {i : Instr} :
    (∃ r, inContext nctx w i = .error r) ↔ nctx ≤ (ctxField w).val := by
  unfold inContext
  split
  · next h => simpa using h
  · next h => simpa using h

/-! ### A word that decodes is its command's word (R54, R55) -/

/-- Whether a word has given fields, by the model's own readings of them. -/
theorem fields_eq_iff {w : Word} {f : Fields} : fields w = f ↔
    (opField w).val = f.op.toNat ∧ (ctxField w).val = f.ctx.toNat ∧ (nlenField w).val = f.nlen.toNat ∧
      (klenField w).val = f.klen.toNat ∧ inpField w = f.inp ∧ outpField w = f.outp ∧ keypField w = f.keyp ∧
      (rsvField w).val = f.rsv.toNat := by
  simp [Fields.ext_iff, BitVec.toNat_eq]

@[simp] theorem isSome_presentIf (p : Bool) (b : Bytes) : (presentIf p b).isSome = p := by
  cases p <;> rfl

/-- Settles O2: the row's mask fixes every field the command does not use, and the encoder sets the others. -/
theorem encodeOfDecodedWordIsTheWord : Obligations.EncodeOfDecodedWordIsTheWord := by
  intro nctx c i h
  rw [← fields_inj, eq_comm, fields_eq_iff]
  obtain hrow | hrow | hrow | hrow | hrow | hrow := row_cases c.word
  · rw [decode_of_rowInit hrow, inContext_eq_ok_iff] at h
    obtain ⟨-, rfl⟩ := h
    simp [selects_rowInit_iff.1 hrow]
  · rw [decode_of_rowInitKey hrow, inContext_eq_ok_iff] at h
    obtain ⟨-, rfl⟩ := h
    simp [selects_rowInitKey_iff.1 hrow]
  · rw [decode_of_rowUpdate hrow, inContext_eq_ok_iff] at h
    obtain ⟨-, rfl⟩ := h
    simp [selects_rowUpdate_iff.1 hrow]
  · rw [decode_of_rowFinal hrow, inContext_eq_ok_iff] at h
    obtain ⟨-, rfl⟩ := h
    simp [selects_rowFinal_iff.1 hrow]
  · rw [decode_of_rowHash hrow] at h
    obtain rfl := Except.ok.inj h
    simp [selects_rowHash_iff.1 hrow]
  · rw [decode_of_no_row hrow] at h
    cases h

/-! ### Decoding what the encoder wrote (R55) -/

/-- The row of the opcode map a command is written by. -/
def Instr.row : Instr → OpRow
  | .init _ _ => rowInit
  | .initKey _ _ _ _ => rowInitKey
  | .update _ _ => rowUpdate
  | .final _ _ => rowFinal
  | .hash _ _ _ _ _ => rowHash

theorem row_selects_encodeWord (i : Instr) : i.row.selects (encodeWord i) = true := by
  cases i with
  | init ctx n => simp [Instr.row, OpRow.selects_iff, fields_and, fields_rowInit_mask]
  | initKey ctx n kl key => simp [Instr.row, OpRow.selects_iff, fields_and, fields_rowInitKey_mask]
  | update ctx input => simp [Instr.row, OpRow.selects_iff, fields_and, fields_rowUpdate_mask]
  | final ctx n => simp [Instr.row, OpRow.selects_iff, fields_and, fields_rowFinal_mask]
  | hash n kl input outp key => simp [Instr.row, OpRow.selects_iff, fields_and, fields_rowHash_mask]

/-- What the decoder reads from a word with given fields. -/
theorem read_of_fields {w : Word} {f : Fields} (h : fields w = f) :
    ctxField w = f.ctx.toFin ∧ nlenField w = f.nlen.toFin ∧ klenField w = f.klen.toFin ∧
      inpField w = f.inp ∧ outpField w = f.outp ∧ keypField w = f.keyp := by
  subst h
  exact ⟨rfl, rfl, rfl, rfl, rfl, rfl⟩

@[simp] theorem presentIf_isSome_getD (b : Option Bytes) : presentIf b.isSome (b.getD []) = b := by
  cases b <;> rfl

@[simp] theorem encode_word (i : Instr) : (encode i).word = encodeWord i := rfl
@[simp] theorem encode_input (i : Instr) : (encode i).input = i.inputBytes := rfl
@[simp] theorem encode_key (i : Instr) : (encode i).key = i.keyBytes := rfl

/-- Settles O1: a command's word selects the command's row, and each field and operand is read back. -/
theorem decodeOfEncodeIsTheCommand : Obligations.DecodeOfEncodeIsTheCommand := by
  intro nctx i hwf
  have hrow : i.row.selects (encode i).word = true := row_selects_encodeWord i
  cases i with
  | init ctx n =>
    have hlt : ctx.val < nctx := Laws.NamesContext.init ctx n nctx _ hwf rfl
    obtain ⟨hctx, hn, -⟩ := read_of_fields (fields_encodeWord_init ctx n)
    rw [decode_of_rowInit hrow, inContext_eq_ok_iff]
    simp [hctx, hn, hlt]
  | initKey ctx n kl key =>
    have hlt : ctx.val < nctx := Laws.NamesContext.initKey ctx n kl key nctx _ hwf rfl
    obtain ⟨hctx, hn, hkl, -, -, hkeyp⟩ := read_of_fields (fields_encodeWord_initKey ctx n kl key)
    rw [decode_of_rowInitKey hrow, inContext_eq_ok_iff]
    simp [hctx, hn, hkl, hkeyp, hlt, Instr.keyBytes]
  | update ctx input =>
    have hlt : ctx.val < nctx := Laws.NamesContext.update ctx input nctx _ hwf rfl
    obtain ⟨hctx, -⟩ := read_of_fields (fields_encodeWord_update ctx input)
    rw [decode_of_rowUpdate hrow, inContext_eq_ok_iff]
    simp [hctx, hlt, Instr.inputBytes]
  | final ctx n =>
    have hlt : ctx.val < nctx := Laws.NamesContext.final ctx n nctx _ hwf rfl
    obtain ⟨hctx, hn, -⟩ := read_of_fields (fields_encodeWord_final ctx n)
    rw [decode_of_rowFinal hrow, inContext_eq_ok_iff]
    simp [hctx, hn, hlt]
  | hash n kl input outp key =>
    obtain ⟨-, hn, hkl, hinp, houtp, hkeyp⟩ := read_of_fields (fields_encodeWord_hash n kl input outp key)
    rw [decode_of_rowHash hrow]
    simp [hn, hkl, hinp, houtp, hkeyp, Instr.inputBytes, Instr.keyBytes]

/-- Settles O5. -/
theorem workedWordsDecode : Obligations.WorkedWordsDecode :=
  ⟨rfl, rfl, rfl, rfl, rfl, rfl⟩

/-! ### The reserved words (R56) -/

/-- A reserved word ends with InvalidCommand, whatever its reason (R135). -/
theorem runCommand_of_reserved {s : State} {c : Command} {r : Reserved} (h : decode s.ctx.length c = .error r) :
    runCommand c s = .next (s.raise .invalidCommand) := by
  rw [runCommand, h]

/-- A step on a reserved word takes it and hands back InvalidCommand. -/
theorem step_of_reserved {s : State} {c : Command} {rest : List HostEvent} {r : Reserved}
    (hpending : s.pending = .command c :: rest) (hdecode : decode s.ctx.length c = .error r) :
    step s = .next (State.raise { s with pending := rest } .invalidCommand) :=
  calc step s = takeEvent (.command c) { s with pending := rest } := step_of_pending hpending
    _ = runCommand c { s with pending := rest } := rfl
    _ = .next (State.raise { s with pending := rest } .invalidCommand) := runCommand_of_reserved hdecode

/-- Settles O4: a word of a row is refused for its context only, and a word of no row has an opcode without a row or a
bit its opcode's row does not take; the step then raises InvalidCommand. -/
theorem reservedWordsExactly : Obligations.ReservedWordsExactly := by
  constructor
  · intro nctx c
    obtain hrow | hrow | hrow | hrow | hrow | hrow := row_cases c.word
    · simp [decode_of_rowInit hrow, inContext_is_error_iff, selects_rowInit_iff.1 hrow]
    · simp [decode_of_rowInitKey hrow, inContext_is_error_iff, selects_rowInitKey_iff.1 hrow]
    · simp [decode_of_rowUpdate hrow, inContext_is_error_iff, selects_rowUpdate_iff.1 hrow]
    · simp [decode_of_rowFinal hrow, inContext_is_error_iff, selects_rowFinal_iff.1 hrow]
    · simp [decode_of_rowHash hrow, selects_rowHash_iff.1 hrow]
    · refine iff_of_true ⟨_, decode_of_no_row hrow⟩ ?_
      rw [no_row_iff, selects_rowInit_iff, selects_rowInitKey_iff, selects_rowUpdate_iff, selects_rowFinal_iff,
        selects_rowHash_iff] at hrow
      -- each opcode from 1 to 5 fails its own row's demand, in RSV or in a field the command does not use
      grind
  · intro s c rest r hpending hdecode
    exact step_of_reserved hpending hdecode

end Sys2Proof
end

section
/-! PROOFS of the parameter block family (40_parameter_block.md): what PBUILD answers, the layout of a serialized block,
its eight words and the chaining value made of them. -/

namespace Sys2Proof.Machine

/-! ### What PBUILD answers (R72) -/

/-- The block PBUILD builds: a command's block with the salt and personalisation in place, zero where absent. -/
def builtBlock (n kl : Byte) (salt personal : Option (Vector Byte 8)) : ParamBlock :=
  { plainBlock n kl with
    salt := salt.getD (Vector.replicate 8 0), personal := personal.getD (Vector.replicate 8 0) }

section
variable {n kl : Nat} {keyed : Bool} {salt personal : Option (Vector Byte 8)}

/-- The digest length is checked first, whatever the key. -/
theorem pbuild_badLength (h : n = 0 ∨ 32 < n) :
    pbuild n keyed kl salt personal = .error .invalidDigestLength := by
  have hn : digestLengthOk n = false := by
    rw [← Bool.not_eq_true, digestLengthOk_iff]; omega
  simp [pbuild, hn]

theorem pbuild_badKey (hn : 1 ≤ n ∧ n ≤ 32) (hkeyed : keyed = true) (h : kl = 0 ∨ 32 < kl) :
    pbuild n keyed kl salt personal = .error .invalidKey := by
  have hk : keyLengthOk kl = false := by
    rw [← Bool.not_eq_true, keyLengthOk_iff]; omega
  simp [pbuild, (digestLengthOk_iff n).2 hn, hkeyed, hk]

theorem pbuild_builds (hn : 1 ≤ n ∧ n ≤ 32) (hk : keyed = false ∨ 1 ≤ kl ∧ kl ≤ 32) :
    pbuild n keyed kl salt personal =
      .ok (builtBlock (BitVec.ofNat 8 n) (BitVec.ofNat 8 (if keyed then kl else 0)) salt personal) := by
  have hpass : (keyed && !keyLengthOk kl) = false := by
    obtain hkeyed | hkl := hk
    · rw [hkeyed, Bool.false_and]
    · rw [(keyLengthOk_iff kl).2 hkl, Bool.not_true, Bool.and_false]
  simp [pbuild, (digestLengthOk_iff n).2 hn, hpass, builtBlock]

/-- Everything PBUILD can answer, in the order of its checks. -/
theorem pbuild_cases (n : Nat) (keyed : Bool) (kl : Nat) (salt personal : Option (Vector Byte 8)) :
    ((n = 0 ∨ 32 < n) ∧ pbuild n keyed kl salt personal = .error .invalidDigestLength) ∨
      ((1 ≤ n ∧ n ≤ 32) ∧ (keyed = true ∧ (kl = 0 ∨ 32 < kl)) ∧
        pbuild n keyed kl salt personal = .error .invalidKey) ∨
      ((1 ≤ n ∧ n ≤ 32) ∧ (keyed = false ∨ 1 ≤ kl ∧ kl ≤ 32) ∧ pbuild n keyed kl salt personal =
        .ok (builtBlock (BitVec.ofNat 8 n) (BitVec.ofNat 8 (if keyed then kl else 0)) salt personal)) := by
  by_cases hn : 1 ≤ n ∧ n ≤ 32
  · by_cases hk : keyed = false ∨ 1 ≤ kl ∧ kl ≤ 32
    · exact .inr (.inr ⟨hn, hk, pbuild_builds hn hk⟩)
    · obtain ⟨hkeyed, hkl⟩ := not_or.1 hk
      have hkeyed := Bool.eq_true_of_not_eq_false hkeyed
      have hkl : kl = 0 ∨ 32 < kl := by omega
      exact .inr (.inl ⟨hn, ⟨hkeyed, hkl⟩, pbuild_badKey hn hkeyed hkl⟩)
  · have hn : n = 0 ∨ 32 < n := by omega
    exact .inl ⟨hn, pbuild_badLength hn⟩

/-- The only block PBUILD answers. -/
theorem eq_builtBlock_of_pbuild {pb : ParamBlock} (h : pbuild n keyed kl salt personal = .ok pb) :
    pb = builtBlock (BitVec.ofNat 8 n) (BitVec.ofNat 8 (if keyed then kl else 0)) salt personal := by
  obtain ⟨-, hbad⟩ | ⟨-, -, hbad⟩ | ⟨-, -, hok⟩ := pbuild_cases n keyed kl salt personal
  · rw [hbad] at h; cases h
  · rw [hbad] at h; cases h
  · exact Except.ok.inj (h.symm.trans hok)

end

/-- Settles O46: the lengths decide which of the three answers PBUILD gives, and a byte holds either length. -/
theorem builderChecksAndHardwires : Obligations.BuilderChecksAndHardwires := by
  intro n keyed kl salt personal
  refine ⟨pbuild_badLength, fun h1 h2 => pbuild_badKey ⟨h1, h2⟩, fun h1 h2 hk => ?_⟩
  have hlen : (if keyed then kl.val else 0) < 2 ^ 8 := by split <;> omega
  exact ⟨_, pbuild_builds ⟨h1, h2⟩ hk, Nat.mod_eq_of_lt n.isLt, Nat.mod_eq_of_lt hlen,
    rfl, rfl, rfl, rfl, rfl, rfl, rfl, rfl⟩

/-! ### The layout of a serialized block (R73) -/

/-- The first 16 bytes of PSER's sequence: the lengths and the tree fields. -/
def pserHead (pb : ParamBlock) : Bytes :=
  [pb.digestLength, pb.keyLength, pb.fanout, pb.depth] ++ leBytes pb.leafLength 4 ++ leBytes pb.nodeOffset 6 ++
    [pb.nodeDepth, pb.innerLength]

@[simp] theorem pserHead_length (pb : ParamBlock) : (pserHead pb).length = 16 := by
  simp [pserHead, leBytes]

/-- PSER's sequence is the head, the salt at offset 16 and the personalisation at offset 24. -/
theorem pserBytes_eq (pb : ParamBlock) :
    pserBytes pb = pserHead pb ++ (pb.salt.toList ++ pb.personal.toList) :=
  List.append_assoc _ _ _

/-- PSER's 32 bytes fill P: byte `i` of P is byte `i` of the sequence. -/
theorem getElem_pser (pb : ParamBlock) (i : Nat) (hi : i < 32) :
    (pser pb)[i] = (pserHead pb ++ (pb.salt.toList ++ pb.personal.toList))[i]'(by simpa using hi) := by
  simp only [pser, pserBytes_eq]
  exact getElem_writeBytes_in _ 0 _ i hi (Nat.zero_le i) (by simpa using hi)

theorem getElem_pser_head (pb : ParamBlock) (i : Nat) (hi : i < 16) :
    (pser pb)[i] = (pserHead pb)[i]'(by simpa using hi) := by
  rw [getElem_pser, List.getElem_append_left]

theorem getElem_pser_salt (pb : ParamBlock) (k : Nat) (hk : k < 8) : (pser pb)[16 + k] = pb.salt[k] := by
  simp [getElem_pser, hk]

theorem getElem_pser_personal (pb : ParamBlock) (k : Nat) (hk : k < 8) : (pser pb)[24 + k] = pb.personal[k] := by
  have hpast : ¬24 + k < 16 := by omega
  simp [getElem_pser, List.getElem_append, hpast, show 24 + k - 16 = 8 + k by omega]

/-- The head does not depend on salt and personalisation. -/
theorem pserHead_builtBlock (n kl : Byte) (salt personal : Option (Vector Byte 8)) :
    pserHead (builtBlock n kl salt personal) = pserHead (plainBlock n kl) := rfl

/-! ### The words of a serialized block (R73) -/

/-- Spaces that agree in four bytes, each at its own offset, hold the same word there. -/
theorem load32le_congr {m n : Nat} {S : Vector Byte m} {U : Vector Byte n} {a b : Nat} {ha : a + 3 < m}
    {hb : b + 3 < n} (h : ∀ (k : Nat) (hk : k < 4), S[a + k] = U[b + k]) : load32le S a ha = load32le U b hb := by
  have h0 : S[a] = U[b] := h 0 (by decide)
  rw [load32le, load32le, h0, h 1 (by decide), h 2 (by decide), h 3 (by decide)]

theorem pser_saltWord (pb : ParamBlock) (a : Nat) (h : a + 3 < 8) :
    load32le (pser pb) (16 + a) (by omega) = load32le pb.salt a h :=
  load32le_congr fun k hk => by simpa only [Nat.add_assoc] using getElem_pser_salt pb (a + k) (by omega)

theorem pser_personalWord (pb : ParamBlock) (a : Nat) (h : a + 3 < 8) :
    load32le (pser pb) (24 + a) (by omega) = load32le pb.personal a h :=
  load32le_congr fun k hk => by simpa only [Nat.add_assoc] using getElem_pser_personal pb (a + k) (by omega)

/-- The first four words are those of the block without salt and personalisation. -/
theorem pser_builtBlock_headWord (n kl : Byte) (salt personal : Option (Vector Byte 8)) (a : Nat) (h : a + 3 < 16) :
    load32le (pser (builtBlock n kl salt personal)) a (by omega) = load32le (pser (plainBlock n kl)) a (by omega) :=
  load32le_congr fun k hk => by
    simp only [getElem_pser_head _ (a + k) (by omega), pserHead_builtBlock]

/-- Word 0 in the lengths as numbers. -/
theorem pser_builtBlock_word0 (n kl : Nat) (hn : n < 256) (hkl : kl < 256) (salt personal : Option (Vector Byte 8)) :
    load32le (pser (builtBlock (BitVec.ofNat 8 n) (BitVec.ofNat 8 kl) salt personal)) 0 (by decide) =
      ((0x01010000 : Word) ||| (BitVec.ofNat 32 kl <<< 8) ||| BitVec.ofNat 32 n) := by
  rw [pser_builtBlock_headWord _ _ _ _ 0 (by decide), pser_word0, setWidth_ofNat8 n hn, setWidth_ofNat8 kl hkl]

/-- Words 1 to 3 are zero. -/
theorem pser_builtBlock_treeWord (n kl : Byte) (salt personal : Option (Vector Byte 8)) (j : Nat)
    (h : 4 * (j + 1) + 3 < 16) : load32le (pser (builtBlock n kl salt personal)) (4 * (j + 1)) (by omega) = 0 :=
  (pser_builtBlock_headWord n kl salt personal _ h).trans (pser_word_succ n kl j _)

/-! ### The chaining value of a block (R74) -/

theorem getElem_pinit_h (c : Context) (P : Vector Byte 32) (i : Fin 8) :
    (pinit c P).h[i] = iv[i.val] ^^^ load32le P (4 * i.val) (by omega) := by
  simp [paramChain]

/-- Settles O47: the block is the built one, whose head is a command's block's and whose tail is salt and
personalisation. -/
theorem parameterBlockWords : Obligations.ParameterBlockWords := by
  intro n keyed kl salt personal pb h
  obtain rfl := eq_builtBlock_of_pbuild h
  have hkl : (if keyed then kl.val else 0) < 256 := by split <;> omega
  exact ⟨pser_builtBlock_word0 n.val _ n.isLt hkl salt personal,
    pser_builtBlock_treeWord _ _ salt personal 0 (by decide),
    pser_builtBlock_treeWord _ _ salt personal 1 (by decide),
    pser_builtBlock_treeWord _ _ salt personal 2 (by decide),
    pser_saltWord _ 0 (by decide), pser_saltWord _ 4 (by decide),
    pser_personalWord _ 0 (by decide), pser_personalWord _ 4 (by decide),
    fun c => getElem_pinit_h c _⟩

end Sys2Proof.Machine
end

section
/-! PROOFS of the compression family (41_compression.md): the permutation rows, rotation and the steps of G, the
operations of a round on their slots, and COMPRESS. -/

namespace Sys2Proof.Machine

/-! ### SIGMA (R81) -/

/-- No row of SIGMA holds an index twice. -/
theorem sigma_row_injective : ∀ r : Fin 10, Function.Injective fun j : Fin 16 => sigma[r][j] := by decide

/-- Settles O44: an injective row on sixteen indices is a bijection. -/
theorem sigmaRowsArePermutations : Obligations.SigmaRowsArePermutations := fun r k =>
  (Finite.injective_iff_bijective.mp (sigma_row_injective r)).existsUnique k

/-! ### ROTR (R82) -/

/-- ROTR in its range of shift counts is the library's rotation. -/
theorem rotr32_eq_rotateRight (w : Word) {n : Nat} (hn : n < 32) : rotr32 w n = w.rotateRight n :=
  (BitVec.rotateRight_eq_rotateRightAux_of_lt hn).symm

/-- A bit either moves down by `n` or wraps round from the low end. -/
theorem getLsbD_rotr32 (w : Word) {n i : Nat} (hn : n < 32) (hi : i < 32) :
    (rotr32 w n).getLsbD i = w.getLsbD ((i + n) % 32) := by
  rw [rotr32_eq_rotateRight w hn, BitVec.getLsbD_rotateRight, Nat.mod_eq_of_lt hn]
  by_cases h : i < 32 - n
  · have hstay : (i + n) % 32 = n + i := by omega
    simp [h, hstay]
  · have hwrap : (i + n) % 32 = i - (32 - n) := by omega
    simp [h, hwrap, hi]

/-- Settles O41, by the bits of the library's rotation; the shift form is the definition. -/
theorem rotationMovesBits : Obligations.RotationMovesBits := fun w _ _ _ hn hi =>
  ⟨getLsbD_rotr32 w (by omega) hi, rfl⟩

/-! ### G (R83) -/

/-- A sum of three words is reduced once. -/
theorem toNat_add_add (u v w : Word) : (u + v + w).toNat = (u.toNat + v.toNat + w.toNat) % 2 ^ 32 := by
  rw [BitVec.toNat_add, BitVec.toNat_add, Nat.mod_add_mod]

/-- Settles O42: the words after each step are those of the definition of G. -/
theorem mixingStepsModulo32Bits : Obligations.MixingStepsModulo32Bits := by
  intro a b c d x y
  exact ⟨_, _, _, _, _, _, _, _,
    toNat_add_add a b x, rotr32_eq_rotateRight _ (by decide),
    BitVec.toNat_add c _, rotr32_eq_rotateRight _ (by decide),
    toNat_add_add _ _ y, rotr32_eq_rotateRight _ (by decide),
    BitVec.toNat_add _ _, rotr32_eq_rotateRight _ (by decide), rfl⟩

/-! ### The operations of a round (R84, R85) -/

/-- The four indices of the working vector that operation `i` of a round reads and writes. -/
def slotsOf (i : Fin 8) : List (Fin 16) := [group[i].ia, group[i].ib, group[i].ic, group[i].id]

/-- Two operations of one half share no slot (R85). -/
theorem slotsOf_disjoint : ∀ i j : Fin 8, (i.val < 4 ∧ j.val < 4) ∨ (4 ≤ i.val ∧ 4 ≤ j.val) → i ≠ j →
    List.Disjoint (slotsOf i) (slotsOf j) := by
  unfold List.Disjoint
  decide

section
variable (m : Vector Word 16) (r : Fin 10)

/-- An operation leaves every word outside its slots. -/
theorem getElem_mixStep_of_not_mem (v : Vector Word 16) {i : Fin 8} {p : Fin 16} (hp : p ∉ slotsOf i) :
    (mixStep m r v i)[p] = v[p] := by
  simp only [slotsOf, List.mem_cons, List.not_mem_nil, or_false, not_or, Fin.ext_iff] at hp
  obtain ⟨ha, hb, hc, hd⟩ := hp
  unfold mixStep
  exact (Vector.getElem_set_ne _ _ (Ne.symm hd)).trans <| (Vector.getElem_set_ne _ _ (Ne.symm hc)).trans <|
    (Vector.getElem_set_ne _ _ (Ne.symm hb)).trans <| Vector.getElem_set_ne _ _ (Ne.symm ha)

/-- An operation looks at its own slots only. -/
theorem mixStep_congr {v w : Vector Word 16} {i : Fin 8} (h : ∀ p ∈ slotsOf i, v[p] = w[p]) {p : Fin 16}
    (hp : p ∈ slotsOf i) : (mixStep m r v i)[p] = (mixStep m r w i)[p] := by
  have ha := h group[i].ia (by simp [slotsOf])
  have hb := h group[i].ib (by simp [slotsOf])
  have hc := h group[i].ic (by simp [slotsOf])
  have hd := h group[i].id (by simp [slotsOf])
  have hrest := h p hp
  simp only [Fin.getElem_fin] at ha hb hc hd hrest
  simp only [mixStep, Fin.getElem_fin, Vector.getElem_set, ha, hb, hc, hd, hrest]

/-- On its own slots an operation does the same before and after one that shares none of them. -/
theorem getElem_mixStep_mixStep_of_mem (v : Vector Word 16) {i j : Fin 8} (hij : List.Disjoint (slotsOf i) (slotsOf j))
    {p : Fin 16} (hp : p ∈ slotsOf j) : (mixStep m r (mixStep m r v i) j)[p] = (mixStep m r v j)[p] :=
  mixStep_congr m r (fun _ hq => getElem_mixStep_of_not_mem m r v (hij.symm hq)) hp

/-- Operations that share no slot commute. -/
theorem mixStep_comm (v : Vector Word 16) {i j : Fin 8} (hij : List.Disjoint (slotsOf i) (slotsOf j)) :
    mixStep m r (mixStep m r v i) j = mixStep m r (mixStep m r v j) i := by
  suffices h : ∀ p : Fin 16, (mixStep m r (mixStep m r v i) j)[p] = (mixStep m r (mixStep m r v j) i)[p] from
    Vector.ext fun k hk => h ⟨k, hk⟩
  intro p
  by_cases hi : p ∈ slotsOf i
  · rw [getElem_mixStep_mixStep_of_mem m r v hij.symm hi, getElem_mixStep_of_not_mem m r _ (hij hi)]
  by_cases hj : p ∈ slotsOf j
  · rw [getElem_mixStep_mixStep_of_mem m r v hij hj, getElem_mixStep_of_not_mem m r _ hi]
  · simp only [getElem_mixStep_of_not_mem m r _ hi, getElem_mixStep_of_not_mem m r _ hj]

end

/-- Settles O43: operations of one half share no slot. -/
theorem operationsOfOneHalfCommute : Obligations.OperationsOfOneHalfCommute := by
  intro m v r i j hhalf
  by_cases hij : i = j
  · rw [hij]
  · exact mixStep_comm m r v (slotsOf_disjoint i j hhalf hij)

/-! ### COMPRESS (R86) -/

/-- A message word of a buffered block has the little-endian value of its four bytes. -/
theorem toNat_messageWords_firstBlock (buf : Vector Byte 128) (i : Fin 16) :
    (messageWords (firstBlock buf))[i].toNat = buf[4 * i.val].toNat + buf[4 * i.val + 1].toNat * 2 ^ 8 +
      buf[4 * i.val + 2].toNat * 2 ^ 16 + buf[4 * i.val + 3].toNat * 2 ^ 24 := by
  have hload := (loadIsLittleEndian 64 (firstBlock buf) (4 * i.val) (by omega)).2
  simpa only [getElem_firstBlock, messageWords, Fin.getElem_fin, Vector.getElem_ofFn] using hload

/-- The first eight words of the working vector are the chaining value. -/
theorem getElem_workingVector_chain (h : Vector Word 8) (t0 t1 f0 f1 : Word) :
    ∀ i : Fin 8, (workingVector h t0 t1 f0 f1)[i.val] = h[i] := by
  intro i
  fin_cases i <;> rfl

/-- The next four are IV as it stands. -/
theorem getElem_workingVector_iv (h : Vector Word 8) (t0 t1 f0 f1 : Word) :
    ∀ i : Fin 4, (workingVector h t0 t1 f0 f1)[i.val + 8] = iv[i.val] := by
  intro i
  fin_cases i <;> rfl

/-- Settles O45: message words, working vector and rounds are those of the definition of COMPRESS. -/
theorem compressWritesChainOnly : Obligations.CompressWritesChainOnly := by
  intro c
  let m := messageWords (firstBlock c.buf)
  let v0 := workingVector c.h c.t0 c.t1 c.f0 c.f1
  let v10 := (List.finRange 10).foldl (mixRound m) v0
  have hchain : ∀ i : Fin 8, (compressFirst c).h[i] = c.h[i] ^^^ v10[i.val] ^^^ v10[i.val + 8] :=
    fun i => Vector.getElem_ofFn i.isLt
  exact ⟨m, v0, v10, toNat_messageWords_firstBlock c.buf, getElem_workingVector_chain _ _ _ _ _,
    getElem_workingVector_iv _ _ _ _ _, rfl, rfl, rfl, rfl, rfl, hchain, rfl⟩

end Sys2Proof.Machine
end

section
/-! PROOFS of the state machine family (42_state_machine.md): the byte counter, what each command answers when its
checks pass or fail, ABSORB and the last blocks of FINAL in closed form, the PHASE table, and whole sessions. -/

namespace Sys2Proof.Machine

/-! ### CTR_ADD by words (R100) -/

theorem ctrAdd_t0_eq_add (c : Context) (inc : Nat) : (ctrAdd c inc).t0 = c.t0 + BitVec.ofNat 32 inc := by
  apply BitVec.eq_of_toNat_eq
  simp only [ctrAdd, Context.count, BitVec.toNat_ofNat, BitVec.toNat_add]
  omega

/-- The low word carries exactly when its sum has wrapped below the increment. -/
theorem ctrAdd_t1_eq_carry (c : Context) {inc : Nat} (hinc : inc < 2 ^ 32) :
    (ctrAdd c inc).t1 = if (c.t0 + BitVec.ofNat 32 inc).toNat < inc then c.t1 + 1 else c.t1 := by
  have ht0 := c.t0.isLt
  have ht1 := c.t1.isLt
  have hone : (1 : Word).toNat = 1 := rfl
  apply BitVec.eq_of_toNat_eq
  simp only [ctrAdd, Context.count, apply_ite BitVec.toNat, BitVec.toNat_ofNat, BitVec.toNat_add, hone]
  split <;> omega

/-- Settles O40, word by word; the other fields are not written. -/
theorem counterAddsModulo64Bits : Obligations.CounterAddsModulo64Bits := by
  intro c inc hinc
  refine ⟨count_ctrAdd c inc, ?_⟩
  rw [← ctrAdd_t1_eq_carry c (by omega), ← ctrAdd_t0_eq_add]
  rfl

/-! ### What INIT and INIT_KEY answer (R102, R104) -/

section
variable {s : State} {ctx : Fin 16} {n kl : Fin 256} {key : Option Bytes}

theorem exec_init_ok (hctx : ctx.val < s.ctx.length) (hn : 1 ≤ n.val ∧ n.val ≤ 32) :
    exec (.init ctx n) s = .next ({ s with ctx := s.ctx.set ctx.val (freshContext n.val) }.replyOk []) :=
  onContext_ok (List.getElem?_eq_getElem hctx) (by rw [initContext_ok _ _ hn.1 hn.2]; rfl)

theorem exec_init_badLength (hctx : ctx.val < s.ctx.length) (hn : n.val = 0 ∨ 32 < n.val) :
    exec (.init ctx n) s = .next (s.withError .invalidDigestLength) :=
  onContext_error (List.getElem?_eq_getElem hctx) (by rw [initContext_error _ _ hn]; rfl)

/-- INIT_KEY puts back what its body leaves of the context and of KSTAGE. -/
theorem exec_initKey_of_ok {r : Keyed} (hctx : ctx.val < s.ctx.length)
    (hr : initKeyContext s.ctx[ctx.val] s.kstage n.val kl.val key = .ok r) : exec (.initKey ctx n kl key) s =
      .next ({ s with ctx := s.ctx.set ctx.val r.context, kstage := r.kstage }.replyOk []) := by
  simp only [exec, execInitKey, List.getElem?_eq_getElem hctx, hr]

theorem exec_initKey_of_error {e : CmdError} (hctx : ctx.val < s.ctx.length)
    (he : initKeyContext s.ctx[ctx.val] s.kstage n.val kl.val key = .error e) :
    exec (.initKey ctx n kl key) s = .next (s.withError e) := by
  simp only [exec, execInitKey, List.getElem?_eq_getElem hctx, he]
  rfl

end

/-- Settles O12. -/
theorem initStartsFreshSession : Obligations.InitStartsFreshSession :=
  fun _ _ _ hctx => ⟨fun h1 h32 => exec_init_ok hctx ⟨h1, h32⟩, exec_init_badLength hctx⟩

/-- Settles O13, by the three answers of INIT_KEY's body. -/
theorem initKeyBuffersPaddedKey : Obligations.InitKeyBuffersPaddedKey := by
  intro s ctx n kl key hctx
  refine ⟨?_, fun hn => ?_, fun h1 h32 hkey => ?_⟩
  · rintro k rfl h1 h32 hk1 hk32 hlen
    exact exec_initKey_of_ok hctx (initKeyContext_ok _ _ _ _ k ⟨h1, h32⟩ ⟨hk1, hk32⟩ hlen)
  · exact exec_initKey_of_error hctx (initKeyContext_badLength _ _ _ _ key hn)
  · exact exec_initKey_of_error hctx (initKeyContext_badKey _ _ _ _ key ⟨h1, h32⟩ hkey)

/-! ### UPDATE (R105, R106) -/

/-- A write as one closed form for the whole space. -/
theorem writeBytes_eq_ofFn {m : Nat} (S : Vector Byte m) (a : Nat) (b : Bytes) :
    writeBytes S a b = Vector.ofFn fun i : Fin m =>
      if a ≤ i.val ∧ i.val < a + b.length then (b[i.val - a]?).getD 0 else S[i] := by
  apply Vector.ext
  intro i hi
  simp only [Vector.getElem_ofFn]
  split
  case isTrue hin =>
    have hlt : i - a < b.length := by omega
    rw [getElem_writeBytes_in _ _ _ _ hi hin.1 hlt, List.getElem?_eq_getElem hlt, Option.getD_some]
  case isFalse hout => exact getElem_writeBytes_out _ _ _ _ hi (by omega)

/-- Input that fits is copied in, also when there is none. -/
theorem absorb_eq_absorbRest {c : Context} {data : Bytes} (h : c.buflen + data.length ≤ 128) :
    absorb c data = absorbRest c data := by
  rw [absorb_fits _ _ (by omega)]
  split
  case isTrue hnil => rw [hnil, absorbRest, writeBytes_nil]; rfl
  case isFalse => rfl

/-- Settles O15. -/
theorem updateThatFitsIsCopiedIn : Obligations.UpdateThatFitsIsCopiedIn := by
  intro s ctx c data hc hphase hfits
  refine (execUpdate_ready data hc hphase).trans ?_
  rw [absorb_eq_absorbRest hfits, absorbRest, writeBytes_eq_ofFn]
  rfl

/-- The buffer after step (a) of ABSORB: the valid bytes, then input up to the end (R105). -/
def filledBuf (c : Context) (data : Bytes) : Vector Byte 128 := Vector.ofFn fun i : Fin 128 =>
  if i.val < c.buflen then c.buf[i] else (data[i.val - c.buflen]?).getD 0

theorem writeBytes_take_eq_filledBuf {c : Context} {data : Bytes} (ho : 128 < c.buflen + data.length) :
    writeBytes c.buf c.buflen (data.take (128 - c.buflen)) = filledBuf c data := by
  apply Vector.ext
  intro i hi
  rw [getElem_writeBytes, filledBuf, Vector.getElem_ofFn]
  by_cases hlt : i < c.buflen
  · rw [if_neg (by omega), if_pos hlt]; rfl
  · have hin : i - c.buflen < data.length := by omega
    rw [if_pos (by omega), if_neg hlt, List.getElem?_take, if_pos (by omega), List.getElem?_eq_getElem hin]
    rfl

/-- A full buffer shifted down, its second half staying as a stale copy (R112, D14). -/
theorem shiftDown_eq_ofFn (S : Vector Byte 128) : writeBytes S 0 (readBytes S 64 64) =
    Vector.ofFn fun i : Fin 128 => if h : i.val < 64 then S[i.val + 64] else S[i] := by
  apply Vector.ext
  intro i hi
  rw [getElem_shiftDown S 64 i (Nat.le_refl 64) hi, Vector.getElem_ofFn]
  simp only [Nat.add_comm, Fin.getElem_fin]

/-- The context after one overflowing turn, in the terms of R105. -/
def overflowed (c : Context) (data : Bytes) : Context :=
  { c with
    h := compress c.h (counterLow (c.count + 64)) (counterHigh (c.count + 64)) c.f0 c.f1
      (firstBlock (filledBuf c data))
    t0 := counterLow (c.count + 64)
    t1 := counterHigh (c.count + 64)
    buf := Vector.ofFn fun i : Fin 128 =>
      if h : i.val < 64 then (filledBuf c data)[i.val + 64] else (filledBuf c data)[i]
    buflen := 64 }

theorem absorbBlock_take_eq_overflowed {c : Context} {data : Bytes} (ho : 128 < c.buflen + data.length) :
    absorbBlock c (data.take (128 - c.buflen)) = overflowed c data := by
  ext1
  case h => rw [absorbBlock_h, writeBytes_take_eq_filledBuf ho, ctrAdd_t0, ctrAdd_t1]; rfl
  case t0 => rw [absorbBlock_t0, ctrAdd_t0]; rfl
  case t1 => rw [absorbBlock_t1, ctrAdd_t1]; rfl
  case buf => rw [absorbBlock_buf, writeBytes_take_eq_filledBuf ho, shiftDown_eq_ofFn]; rfl
  all_goals rfl

/-- UPDATE on a context just put back: the context file is written once. -/
theorem execUpdate_set {s : State} {ctx : Fin 16} {d : Context} (x : Bytes) (hctx : ctx.val < s.ctx.length)
    (hphase : d.phase = .ready) : execUpdate ctx x { s with ctx := s.ctx.set ctx.val d } =
      .next ({ s with ctx := s.ctx.set ctx.val (absorb d x) }.replyOk []) := by
  rw [execUpdate_ready x (List.getElem?_set_self hctx) hphase, List.set_set]

/-- Settles O16: both sides absorb the rest into the context the overflowing turn leaves. -/
theorem updateThatOverflowsCompressesFirstHalf : Obligations.UpdateThatOverflowsCompressesFirstHalf := by
  intro s ctx c data hc hphase hroom ho full T
  have hctx : ctx.val < s.ctx.length := (List.getElem?_eq_some_iff.1 hc).1
  have hturn : absorb c data = absorb (overflowed c data) (data.drop (128 - c.buflen)) := by
    rw [absorb_overflow c data (by omega), absorbBlock_take_eq_overflowed ho]
  refine (execUpdate_ready data hc hphase).trans ?_
  rw [hturn]
  exact (execUpdate_set (d := overflowed c data) _ hctx hphase).symm

/-- Settles O17, by the counts of ABSORB. -/
theorem updateCompletesAndCountsBlocks : Obligations.UpdateCompletesAndCountsBlocks := by
  intro s ctx c data hc hphase hroom k
  obtain ⟨hbuflen, hcount⟩ := absorb_counts c data hroom
  exact ⟨absorb c data, execUpdate_ready data hc hphase, (absorb_phase c data).trans hphase, absorb_f0 c data,
    absorb_f1 c data, absorb_lastNode c data, hbuflen, hcount⟩

/-- Settles O18: the second UPDATE finds what the first one absorbed, and ABSORB depends on the stream alone. -/
theorem updatesDependOnTheStreamOnly : Obligations.UpdatesDependOnTheStreamOnly := by
  intro s ctx c x y hc hphase hroom
  have hctx : ctx.val < s.ctx.length := (List.getElem?_eq_some_iff.1 hc).1
  have hphase' : (absorb c x).phase = .ready := (absorb_phase c x).trans hphase
  refine ⟨_, _, _, execUpdate_ready x hc hphase, execUpdate_ready y (List.getElem?_set_self hctx) hphase',
    execUpdate_ready (x ++ y) hc hphase, ?_⟩
  rw [absorb_append c x y hroom]
  simp only [State.replyOk, State.reply, List.set_set]

/-! ### FINAL (R108, R109) -/

theorem exec_final_ready {s : State} {ctx : Fin 16} {n : Fin 256} {c : Context} (hc : s.ctx[ctx.val]? = some c)
    (hphase : c.phase = .ready) (hn : n.val ≤ 32) : exec (.final ctx n) s =
      .next ({ s with ctx := s.ctx.set ctx.val (finished c) }.replyOk
        ((digestBytes (finished c).h).take n.val)) := by
  rw [← serializeDigest_toList]
  exact onContext_ok hc (finalContext_ready hphase hn)

theorem exec_final_badLength {s : State} {ctx : Fin 16} {n : Fin 256} {c : Context} (hc : s.ctx[ctx.val]? = some c)
    (hphase : c.phase = .ready) (hn : 32 < n.val) :
    exec (.final ctx n) s = .next (s.withError .invalidDigestLength) :=
  onContext_error hc (finalContext_badLength hphase hn)

theorem exec_final_notReady {s : State} {ctx : Fin 16} {n : Fin 256} {c : Context} (hc : s.ctx[ctx.val]? = some c)
    (hphase : c.phase ≠ .ready) : exec (.final ctx n) s = .next (s.withError .invalidState) :=
  onContext_error hc (finalContext_notReady n.val hphase)

/-- The first `b` bytes of a buffer, then zeros. -/
def paddedBuf (S : Vector Byte 128) (b : Nat) : Vector Byte 128 := Vector.ofFn fun i : Fin 128 =>
  if i.val < b then S[i] else 0

theorem writeBytes_zeros_eq_paddedBuf (S : Vector Byte 128) (b : Nat) :
    writeBytes S b (zeros (128 - b)) = paddedBuf S b := by
  apply Vector.ext
  intro i hi
  simp only [writeBytes_eq_ofFn, paddedBuf, Vector.getElem_ofFn, zeros_length, zeros_getD]
  by_cases hlt : i < b
  · rw [if_neg (by omega), if_pos hlt]
  · rw [if_pos (by omega), if_neg hlt]

/-- The context that closing a session on the chaining value `h` and the bytes `buf` leaves, with `T` bytes counted. -/
def closedContext (c : Context) (h : Vector Word 8) (T : Nat) (buf : Vector Byte 128) (buflen : Nat) : Context where
  phase := .finalized
  h := compress h (counterLow T) (counterHigh T) 0xFFFFFFFF (if c.lastNode then 0xFFFFFFFF else c.f1) (firstBlock buf)
  t0 := counterLow T
  t1 := counterHigh T
  f0 := 0xFFFFFFFF
  f1 := if c.lastNode then 0xFFFFFFFF else c.f1
  buf := buf
  buflen := buflen
  lastNode := c.lastNode

theorem drainBlock_of_le {c : Context} (h : c.buflen ≤ 64) : drainBlock c = c := if_neg (by omega)

theorem drainBlock_of_lt {c : Context} (h : 64 < c.buflen) : drainBlock c =
    { compressFirst (ctrAdd c 64) with
      buflen := c.buflen - 64, buf := writeBytes c.buf 0 (readBytes c.buf 64 (c.buflen - 64)) } := if_pos h

/-- FINAL on one block. -/
theorem finished_of_le {c : Context} (h : c.buflen ≤ 64) :
    finished c = closedContext c c.h (c.count + c.buflen) (paddedBuf c.buf c.buflen) c.buflen := by
  rw [finished, drainBlock_of_le h, ← writeBytes_zeros_eq_paddedBuf]
  rfl

/-- The buffered bytes beyond the first 64, padded with zeros to a block. -/
def tailBlock (c : Context) : Vector Byte 64 := Vector.ofFn fun i : Fin 64 =>
  if 64 + i.val < c.buflen then c.buf[64 + i.val] else 0

/-- The bytes shifted down by the first part of FINAL and then padded are the tail block and zeros. -/
theorem paddedBuf_shiftDown {c : Context} (hroom : c.buflen ≤ 128) :
    paddedBuf (writeBytes c.buf 0 (readBytes c.buf 64 (c.buflen - 64))) (c.buflen - 64) =
      Vector.ofFn fun i : Fin 128 => if h : i.val < 64 then (tailBlock c)[i.val] else 0 := by
  apply Vector.ext
  intro i hi
  simp only [paddedBuf, tailBlock, Vector.getElem_ofFn, Fin.getElem_fin]
  rw [getElem_shiftDown _ _ _ (by omega) hi]
  by_cases hlt : i < c.buflen - 64
  · rw [if_pos hlt, dif_pos hlt, dif_pos (by omega), if_pos (by omega)]
  · rw [if_neg hlt]
    split
    case isTrue => rw [if_neg (by omega)]
    case isFalse => rfl

/-- FINAL on two blocks. -/
theorem finished_of_lt {c : Context} (h : 64 < c.buflen) (hroom : c.buflen ≤ 128) :
    finished c = closedContext c
      (compress c.h (counterLow (c.count + 64)) (counterHigh (c.count + 64)) c.f0 c.f1 (firstBlock c.buf))
      (c.count + c.buflen)
      (Vector.ofFn fun i : Fin 128 => if h : i.val < 64 then (tailBlock c)[i.val] else 0) (c.buflen - 64) := by
  have hsum : ((ctrAdd c 64).count + (c.buflen - 64)) % 2 ^ 64 = (c.count + c.buflen) % 2 ^ 64 := by
    rw [count_ctrAdd]; omega
  rw [closedContext, ← counterLow_congr hsum, ← counterHigh_congr hsum, ← paddedBuf_shiftDown hroom,
    ← writeBytes_zeros_eq_paddedBuf, finished, drainBlock_of_lt h]
  rfl

/-- The first block of a padded buffer. -/
theorem firstBlock_paddedBuf (S : Vector Byte 128) (b : Nat) : firstBlock (paddedBuf S b) =
    Vector.ofFn fun i : Fin 64 => if i.val < b then S[i.val] else 0 := by
  simp [firstBlock, paddedBuf]

theorem firstBlock_tail (B : Vector Byte 64) :
    firstBlock (Vector.ofFn fun i : Fin 128 => if h : i.val < 64 then B[i.val] else 0) = B := by
  apply Vector.ext
  intro i hi
  simp [hi]

/-- Settles O19. -/
theorem finalOnOneBlock : Obligations.FinalOnOneBlock := by
  intro s ctx n c hc hphase hle hn T f1 h
  refine (exec_final_ready hc hphase hn).trans ?_
  rw [finished_of_le hle, closedContext, firstBlock_paddedBuf]
  rfl

/-- Settles O20. -/
theorem finalOnTwoBlocks : Obligations.FinalOnTwoBlocks := by
  intro s ctx n c hc hphase hlt hroom hn rest T f1 h1 h
  refine (exec_final_ready hc hphase hn).trans ?_
  rw [finished_of_lt hlt hroom, closedContext, firstBlock_tail]
  rfl

/-- Settles O21: n is read only when the bytes are cut off. -/
theorem finalReturnsAPrefix : Obligations.FinalReturnsAPrefix := by
  intro s ctx n c hc hphase hn
  have hlen : (digestBytes (finished c).h).length = 32 := by rw [← serializeDigest_toList, Vector.length_toList]
  refine ⟨{ s with ctx := s.ctx.set ctx.val (finished c) }, digestBytes (finished c).h, hlen, ?_,
    exec_final_ready hc hphase hn⟩
  have hall : (digestBytes (finished c).h).take (32 : Fin 256).val = digestBytes (finished c).h :=
    List.take_of_length_le hlen.le
  have h32 := exec_final_ready (n := 32) hc hphase (by decide)
  rwa [hall] at h32

/-! ### PHASE (R110, R153) -/

/-- INIT_KEY without a key, or with a length out of range, raises one error or the other. -/
theorem exec_initKey_badOperand {s : State} {ctx : Fin 16} {n kl : Fin 256} {key : Option Bytes}
    (hctx : ctx.val < s.ctx.length) (h : n.val = 0 ∨ 32 < n.val ∨ key = none ∨ kl.val = 0 ∨ 32 < kl.val) :
    ∃ t, exec (.initKey ctx n kl key) s = .next t ∧ t.ctx = s.ctx := by
  obtain ⟨-, hlength, hkey⟩ := initKeyBuffersPaddedKey s ctx n kl key hctx
  by_cases hn : n.val = 0 ∨ 32 < n.val
  · exact ⟨_, hlength hn, rfl⟩
  · have hkl : key = none ∨ kl.val = 0 ∨ 32 < kl.val := by tauto
    exact ⟨_, hkey (by omega) (by omega) hkl, rfl⟩

/-- Settles O33, row by row from what each command answers. -/
theorem phaseTransitionTable : Obligations.PhaseTransitionTable := by
  intro s ctx c n kl k x hc
  have hctx : ctx.val < s.ctx.length := (List.getElem?_eq_some_iff.1 hc).1
  refine ⟨fun hn => ?_, fun hn => ?_, ?_, fun h => ?_, ?_, fun hphase => ?_, fun hphase => ?_, fun hphase hn => ?_,
    fun hphase hn => ?_, fun hphase => ?_⟩
  · exact ⟨_, _, exec_init_ok hctx hn, rfl, rfl⟩
  · exact ⟨_, exec_init_badLength hctx hn, rfl⟩
  · rintro ⟨h1, h32, hk1, hk32, hlen⟩
    obtain ⟨hok, -⟩ := initKeyBuffersPaddedKey s ctx n kl (some k) hctx
    exact ⟨_, _, hok k rfl h1 h32 hk1 hk32 hlen, rfl, rfl⟩
  · exact exec_initKey_badOperand hctx (by tauto)
  · exact exec_initKey_badOperand hctx (by tauto)
  · exact ⟨_, _, execUpdate_ready x hc hphase, rfl, (absorb_phase c x).trans hphase⟩
  · exact execUpdate_notReady x hc hphase
  · exact ⟨_, _, exec_final_ready hc hphase hn, rfl, rfl⟩
  · exact exec_final_badLength hc hphase hn
  · exact exec_final_notReady hc hphase

/-- Settles O34: a command on another context leaves this one as it was, UPDATE and FINAL succeed on a READY context
only, and an error changes no context. -/
theorem onlyInitMakesAContextReady : Obligations.OnlyInitMakesAContextReady := by
  intro i s t j c d h hc hd hbefore hafter
  have heffect := exec_effect h
  obtain ⟨-, -, hother, -⟩ := heffect.frame
  have hsame : t.ctx[j]? ≠ s.ctx[j]? := by
    rw [hc, hd]
    rintro ⟨⟩
    exact hbefore hafter
  have hnames : i.names = some j := by
    by_contra hne
    exact hsame (hother j hne)
  have hnotReady : ∀ c', s.ctx[j]? = some c' → c'.phase ≠ .ready := by
    rw [hc]
    rintro _ ⟨⟩
    exact hbefore
  cases heffect with
  | error => exact absurd rfl hsame
  | init ctx n => exact ⟨ctx, n, Option.some.inj hnames, .inl rfl⟩
  | initKey ctx n kl k => exact ⟨ctx, n, Option.some.inj hnames, .inr ⟨kl, some k, rfl⟩⟩
  | update ctx x c' hc' hphase => exact absurd hphase (hnotReady c' (Option.some.inj hnames ▸ hc'))
  | final ctx n c' hc' hphase => exact absurd hphase (hnotReady c' (Option.some.inj hnames ▸ hc'))
  | hash => cases hnames

/-! ### Sessions (R111) -/

theorem run_succ_of_step {M : Host.Core} {s t : M.State} (k : Nat) (h : M.step s = .next t) :
    M.run (k + 1) s = M.run k t := by
  simp only [Host.Core.run, h]

/-- A run of `k + 1` steps whose first step takes an issued command. -/
theorem run_issued {s t : State} {i : Instr} {rest : List HostEvent} (k : Nat)
    (hpending : s.pending = .command (encode i) :: rest) (hdecode : decode s.ctx.length (encode i) = .ok i)
    (hexec : exec i { s with pending := rest } = .next t) :
    Host.Core.run core (k + 1) s = Host.Core.run core k t :=
  run_succ_of_step (M := core) k ((stepRunsTheDecodedCommand s _ rest i hpending hdecode).trans hexec)

/-- The decoder looks at no input byte, so an UPDATE decodes whatever the length of its input. -/
theorem decode_encode_update {nctx : Nat} {ctx : Fin 16} (x : Bytes) (hctx : ctx.val < nctx) :
    decode nctx (encode (.update ctx x)) = .ok (.update ctx x) := by
  obtain ⟨hfield, -⟩ := read_of_fields (fields_encodeWord_update ctx x)
  have hrow : rowUpdate.selects (encode (.update ctx x)).word = true := row_selects_encodeWord (.update ctx x)
  rw [decode_of_rowUpdate hrow, inContext_eq_ok_iff]
  simp [hfield, hctx, Instr.inputBytes]

/-- UPDATEs issued one after the other, run step by step, absorb the joined input. -/
theorem run_updates (ctx : Fin 16) (xs : List Bytes) (rest : List HostEvent) (k : Nat) (s : State) (c : Context)
    (hc : s.ctx[ctx.val]? = some c) (hphase : c.phase = .ready) (hroom : c.buflen ≤ 128)
    (hpending : s.pending = issued (xs.map (Instr.update ctx)) ++ rest) :
    ∃ t : State, Host.Core.run core (xs.length + k) s = Host.Core.run core k t ∧
      t.ctx[ctx.val]? = some (absorb c xs.flatten) ∧ t.pending = rest ∧ t.kstage = s.kstage ∧
      t.returned = s.returned ++ List.replicate xs.length ⟨.ok, []⟩ := by
  induction xs generalizing s c with
  | nil => exact ⟨s, by rw [List.length_nil, Nat.zero_add], hc, hpending, rfl, (List.append_nil _).symm⟩
  | cons x xs ih =>
    have hctx : ctx.val < s.ctx.length := (List.getElem?_eq_some_iff.1 hc).1
    have hfirst := run_issued (xs.length + k) hpending (decode_encode_update x hctx) (execUpdate_ready x hc hphase)
    obtain ⟨t, hrun, hc', hpending', hkstage, hreturned⟩ :=
      ih ({ s with ctx := s.ctx.set ctx.val (absorb c x), pending := _ }.replyOk []) (absorb c x)
        (List.getElem?_set_self hctx) ((absorb_phase c x).trans hphase) (absorb_buflen_le c x hroom) rfl
    refine ⟨t, ?_, ?_, hpending', hkstage, ?_⟩
    · rw [List.length_cons, Nat.add_right_comm]
      exact hfirst.trans hrun
    · rw [hc', List.flatten_cons, absorb_append c x _ hroom]
    · rw [hreturned, List.length_cons, List.replicate_succ]
      exact List.append_assoc _ _ _

/-- The rest of a session on a context that holds the stream `S`: its UPDATEs and FINAL return the reference digest of
the stream continued. -/
theorem run_updates_final {s : State} {ctx : Fin 16} {m : Fin 256} {c : Context} {h0 : Vector Word 8} {S : Bytes}
    (xs : List Bytes) (hc : s.ctx[ctx.val]? = some c) (hholds : c.Holds h0 S) (hm : m.val ≤ 32)
    (hpending : s.pending = issued (xs.map (Instr.update ctx) ++ [.final ctx m])) :
    ∃ t : State, Host.Core.run core (xs.length + 1) s = .next t ∧ t.pending = [] ∧ t.kstage = s.kstage ∧
      t.returned = s.returned ++ List.replicate xs.length ⟨.ok, []⟩ ++
        [⟨.ok, (digestBytes (finalChain h0 (S ++ xs.flatten))).take m.val⟩] := by
  have hroom := hholds.tracks.room
  have hend := absorbHoldsTheStream c h0 S xs.flatten hholds
  have hdigest : (finished (absorb c xs.flatten)).h = finalChain h0 (S ++ xs.flatten) :=
    lastBlock_drainBlock_h _ h0 _ hend
  obtain ⟨hphase, -⟩ := hholds
  obtain ⟨hphase', -⟩ := hend
  rw [issued, List.map_append] at hpending
  obtain ⟨t, hrun, hc', hpending', hkstage, hreturned⟩ := run_updates ctx xs _ 1 s c hc hphase hroom hpending
  have hctx : ctx.val < t.ctx.length := (List.getElem?_eq_some_iff.1 hc').1
  have hwf : (Instr.final ctx m).wf t.ctx.length = true := decide_eq_true hctx
  have hlast := run_issued 0 hpending' (decodeOfEncodeIsTheCommand _ _ hwf) (exec_final_ready hc' hphase' hm)
  refine ⟨_, hrun.trans hlast, rfl, hkstage, ?_⟩
  rw [← hreturned, ← hdigest]
  rfl

/-- A session's first command, started on the context `c`, and the rest of the session. -/
theorem run_session {s : State} {ctx : Fin 16} {m : Fin 256} {first : Instr} {c : Context} {ks : Vector Byte 64}
    {h0 : Vector Word 8} {S : Bytes} (xs : List Bytes) (hctx : ctx.val < s.ctx.length) (hm : m.val ≤ 32)
    (hwf : first.wf s.ctx.length = true) (hholds : c.Holds h0 S)
    (hfirst : ∀ p, exec first { s with pending := p } =
      .next ({ s with ctx := s.ctx.set ctx.val c, kstage := ks, pending := p }.replyOk [])) :
    ∃ t : State, Host.Core.run core (xs.length + 2)
        (s.issue (first :: (xs.map (Instr.update ctx) ++ [.final ctx m]))) = .next t ∧
      t.pending = [] ∧ t.kstage = ks ∧
      t.returned = s.returned ++ List.replicate (xs.length + 1) ⟨.ok, []⟩ ++
        [⟨.ok, (digestBytes (finalChain h0 (S ++ xs.flatten))).take m.val⟩] := by
  have hstart := run_issued (s := s.issue (first :: (xs.map (Instr.update ctx) ++ [.final ctx m])))
    (xs.length + 1) rfl (decodeOfEncodeIsTheCommand _ _ hwf) (hfirst _)
  obtain ⟨t, hrun, hpending, hkstage, hreturned⟩ := run_updates_final
    (s := { s with ctx := s.ctx.set ctx.val c, kstage := ks, pending := _ }.replyOk []) (m := m) xs
    (List.getElem?_set_self hctx) hholds hm rfl
  refine ⟨t, hstart.trans hrun, hpending, hkstage, ?_⟩
  rw [hreturned, List.replicate_succ]
  simp only [State.replyOk_returned, List.append_assoc, List.cons_append, List.nil_append]

/-- Settles O26: INIT leaves a context that holds the empty stream. -/
theorem unkeyedSessionComputesTheReference : Obligations.UnkeyedSessionComputesTheReference := by
  intro s ctx n m xs hctx h1 h32 hm
  have hwf : (Instr.init ctx n).wf s.ctx.length = true := decide_eq_true hctx
  obtain ⟨t, hrun, hpending, -, hreturned⟩ := run_session xs hctx hm hwf (freshContext_holds n.val)
    fun p => exec_init_ok (s := { s with pending := p }) hctx ⟨h1, h32⟩
  exact ⟨t, hrun, hpending, hreturned⟩

/-- Settles O27: INIT_KEY leaves a context that holds the key block, and KSTAGE erased. -/
theorem keyedSessionComputesTheReference : Obligations.KeyedSessionComputesTheReference := by
  intro s ctx n kl m key xs hctx h1 h32 hk1 hk32 hlen hm
  have hwf : (Instr.initKey ctx n kl (some key)).wf s.ctx.length = true := by
    simp [Instr.wf, ctxInRange, keySupplied, hctx, hlen]
  obtain ⟨t, hrun, hpending, hkstage, hreturned⟩ := run_session xs hctx hm hwf
    (keyedContext_holds n.val kl.val key hk32 hlen) fun p => exec_initKey_of_ok (s := { s with pending := p }) hctx
      (initKeyContext_ok _ _ _ _ key ⟨h1, h32⟩ ⟨hk1, hk32⟩ hlen)
  refine ⟨t, hrun, hpending, ?_, ?_⟩
  · intro i
    rw [hkstage]
    exact replicate_zero_erased i
  · rw [hreturned, keyedDigest, List.length_take_of_le hlen]

end Sys2Proof.Machine
end

section
/-! PROOFS of the one-shot family (43_oneshot.md): which initialisation HASH picks, what HASH answers by what that
initialisation answers, and the session HASH composes. -/

namespace Sys2Proof.Machine

/-! ### The initialisation HASH picks (R120) -/

/-- INIT_KEY's body overwrites the context and KSTAGE it is given: its answer shows nothing of them. -/
theorem initKeyContext_forgets (c d : Context) (k l : Vector Byte 64) (n kl : Nat) (key : Option Bytes) :
    initKeyContext c k n kl key = initKeyContext d l n kl key := by
  by_cases hn : 1 ≤ n ∧ n ≤ 32
  · by_cases hbad : key = none ∨ kl = 0 ∨ 32 < kl
    · rw [initKeyContext_badKey c k _ _ _ hn hbad, initKeyContext_badKey d l _ _ _ hn hbad]
    · obtain ⟨b, rfl⟩ : ∃ b, key = some b := Option.ne_none_iff_exists'.1 fun h => hbad (.inl h)
      have hkl : 1 ≤ kl ∧ kl ≤ 32 := by omega
      by_cases hshort : b.length < kl
      · rw [initKeyContext_shortKey c k _ _ b hn hkl hshort, initKeyContext_shortKey d l _ _ b hn hkl hshort]
      · have hlen : kl ≤ b.length := Nat.le_of_not_lt hshort
        rw [initKeyContext_ok c k _ _ b hn hkl hlen, initKeyContext_ok d l _ _ b hn hkl hlen]
  · have hn' : n = 0 ∨ 32 < n := by omega
    rw [initKeyContext_badLength c k _ _ _ hn', initKeyContext_badLength d l _ _ _ hn']

section
variable {s : State} {n kl : Nat} {key : Option Bytes}

theorem hashStart_unkeyed (h : key = none ∨ kl = 0) :
    hashStart s n kl key = (initContext s.scr n).map fun c => ⟨c, s.kstage⟩ := by
  have heff : effectiveKeyLength kl key = 0 := by
    cases key with
    | none => rfl
    | some k => exact h.resolve_left (Option.some_ne_none k)
  rw [hashStart, if_pos heff]

theorem hashStart_keyed {k : Bytes} (h : kl ≠ 0) :
    hashStart s n kl (some k) = initKeyContext s.scr s.kstage n kl (some k) :=
  if_neg h

/-- The initialisation answers a session only for a digest length in range, and the session is READY. -/
theorem le_and_ready_of_hashStart {r : Keyed} (hr : hashStart s n kl key = .ok r) :
    n ≤ 32 ∧ r.context.phase = .ready := by
  obtain ⟨e, he⟩ | ⟨-, hn, -, ho⟩ | ⟨k, -, -, hn, -, -, -, ho⟩ := hashStart_cases s n kl key
  · cases hr.symm.trans he
  · cases hr.symm.trans ho
    exact ⟨hn, rfl⟩
  · cases hr.symm.trans ho
    exact ⟨hn, rfl⟩

end

/-! ### What HASH answers (R120) -/

section
variable {s : State} {n kl : Fin 256} {key : Option Bytes}

theorem exec_hash_of_error {e : CmdError} (M : Bytes) (he : hashStart s n.val kl.val key = .error e) :
    exec (.hash n kl (some M) true key) s = .next (s.withError e) := by
  simp only [exec, execHash, readInput, he]
  rfl

/-- HASH finishes the session its initialisation starts, and leaves it in SCR. -/
theorem exec_hash_of_ok {r : Keyed} (M : Bytes) (hr : hashStart s n.val kl.val key = .ok r) :
    exec (.hash n kl (some M) true key) s =
      .next ({ s with scr := finished (absorb r.context M), kstage := r.kstage }.replyOk
        ((digestBytes (finished (absorb r.context M)).h).take n.val)) := by
  obtain ⟨hn, hphase⟩ := le_and_ready_of_hashStart hr
  simp only [exec, execHash, readInput, hr, finalContext_ready ((absorb_phase r.context M).trans hphase) hn]
  rw [← serializeDigest_toList]
  rfl

/-- HASH on an initialisation that holds the stream `S` returns the reference digest of `S` and the message. -/
theorem exec_hash_of_holds {c : Context} {ks : Vector Byte 64} {h0 : Vector Word 8} {S : Bytes} (M : Bytes)
    (hr : hashStart s n.val kl.val key = .ok ⟨c, ks⟩) (hholds : c.Holds h0 S) :
    exec (.hash n kl (some M) true key) s =
      .next ({ s with scr := finished (absorb c M), kstage := ks }.replyOk
        ((digestBytes (finalChain h0 (S ++ M))).take n.val)) := by
  have hchain : (finished (absorb c M)).h = finalChain h0 (S ++ M) :=
    lastBlock_drainBlock_h _ h0 _ (absorbHoldsTheStream c h0 S M hholds)
  rw [exec_hash_of_ok M hr, hchain]

end

/-- Settles O23: the initialisation holds the empty stream, or the key block when it is keyed. -/
theorem hashComputesTheReference : Obligations.HashComputesTheReference := by
  intro s n kl M key h1 h32
  constructor
  · intro hkey
    have hr : hashStart s n.val kl.val key = .ok ⟨freshContext n.val, s.kstage⟩ := by
      rw [hashStart_unkeyed hkey, initContext_ok _ _ h1 h32]
      rfl
    have hhash := exec_hash_of_holds M hr (freshContext_holds n.val)
    rw [List.nil_append] at hhash
    exact ⟨_, rfl, hhash⟩
  · rintro k rfl hk1 hk32 hlen
    have hr := (hashStart_keyed (s := s) (k := k) (Nat.ne_of_gt hk1)).trans
      (initKeyContext_ok s.scr s.kstage n.val kl.val k ⟨h1, h32⟩ ⟨hk1, hk32⟩ hlen)
    have hhash := exec_hash_of_holds M hr (keyedContext_holds n.val kl.val k hk32 hlen)
    rw [keyedDigest, List.length_take_of_le hlen]
    exact ⟨_, rfl, hhash⟩

/-! ### The session HASH composes (R121) -/

/-- The first command of the session HASH composes, on the context `ctx`. -/
def firstCommand (ctx : Fin 16) (n kl : Fin 256) (key : Option Bytes) : Instr :=
  if key.isSome && kl.val != 0 then .initKey ctx n kl key else .init ctx n

section
variable {s : State} {ctx : Fin 16} {n kl : Fin 256} {key : Option Bytes}

theorem firstCommand_unkeyed (h : key = none ∨ kl.val = 0) : firstCommand ctx n kl key = .init ctx n := by
  refine if_neg ?_
  rcases h with rfl | h <;> simp [*]

theorem firstCommand_keyed {k : Bytes} (h : kl.val ≠ 0) :
    firstCommand ctx n kl (some k) = .initKey ctx n kl (some k) :=
  if_pos (by simpa using h)

/-- The first command starts on its context the session that HASH starts on SCR. -/
theorem exec_firstCommand_of_ok {r : Keyed} (hctx : ctx.val < s.ctx.length)
    (hr : hashStart s n.val kl.val key = .ok r) : exec (firstCommand ctx n kl key) s =
      .next ({ s with ctx := s.ctx.set ctx.val r.context, kstage := r.kstage }.replyOk []) := by
  obtain ⟨e, he⟩ | ⟨h1, h32, hkey, ho⟩ | ⟨k, rfl, h1, h32, hk1, hk32, hlen, ho⟩ :=
    hashStart_cases s n.val kl.val key
  · cases hr.symm.trans he
  · cases hr.symm.trans ho
    rw [firstCommand_unkeyed hkey]
    exact exec_init_ok hctx ⟨h1, h32⟩
  · cases hr.symm.trans ho
    rw [firstCommand_keyed (Nat.ne_of_gt hk1)]
    exact exec_initKey_of_ok hctx (initKeyContext_ok _ _ _ _ k ⟨h1, h32⟩ ⟨hk1, hk32⟩ hlen)

/-- The first command fails with the error with which HASH's initialisation fails. -/
theorem exec_firstCommand_of_error {e : CmdError} (hctx : ctx.val < s.ctx.length)
    (he : hashStart s n.val kl.val key = .error e) :
    exec (firstCommand ctx n kl key) s = .next (s.withError e) := by
  by_cases hkey : key = none ∨ kl.val = 0
  · rw [hashStart_unkeyed hkey] at he
    rw [firstCommand_unkeyed hkey]
    by_cases hn : 1 ≤ n.val ∧ n.val ≤ 32
    · rw [initContext_ok _ _ hn.1 hn.2] at he
      cases he
    · have hn' : n.val = 0 ∨ 32 < n.val := by omega
      rw [initContext_error _ _ hn'] at he
      cases he
      exact exec_init_badLength hctx hn'
  · obtain ⟨hsome, hkl⟩ := not_or.1 hkey
    obtain ⟨k, rfl⟩ := Option.ne_none_iff_exists'.1 hsome
    rw [hashStart_keyed hkl] at he
    rw [firstCommand_keyed hkl]
    exact exec_initKey_of_error hctx ((initKeyContext_forgets _ _ _ _ _ _ _).trans he)

/-- After a first command that started `r`, UPDATE and FINAL on the same context return the digest HASH returns. -/
theorem final_result_of_start {r : Keyed} {s2 s3 : State} (M : Bytes) (hctx : ctx.val < s.ctx.length)
    (hr : hashStart s n.val kl.val key = .ok r)
    (hupdate : exec (.update ctx M)
      ({ s with ctx := s.ctx.set ctx.val r.context, kstage := r.kstage }.replyOk []) = .next s2)
    (hfinal : exec (.final ctx n) s2 = .next s3) :
    s3.returned = s2.returned ++ [⟨.ok, (digestBytes (finished (absorb r.context M)).h).take n.val⟩] := by
  obtain ⟨hn, hphase⟩ := le_and_ready_of_hashStart hr
  have hset (c : Context) : (s.ctx.set ctx.val c)[ctx.val]? = some c := List.getElem?_set_self hctx
  cases hupdate.symm.trans (execUpdate_ready M (hset r.context) hphase)
  have hc : ((s.ctx.set ctx.val r.context).set ctx.val (absorb r.context M))[ctx.val]? =
      some (absorb r.context M) := by rw [List.set_set, hset]
  cases hfinal.symm.trans (exec_final_ready hc ((absorb_phase r.context M).trans hphase) hn)
  rfl

end

/-- Settles O24: HASH and the first command of the session start the same session, on SCR and on the context named, or
fail with the same error. -/
theorem hashEqualsTheSessionItComposes : Obligations.HashEqualsTheSessionItComposes := by
  intro s ctx n kl M key first hctx hfirst
  obtain rfl : first = firstCommand ctx n kl key := hfirst
  cases hstart : hashStart s n.val kl.val key with
  | error e =>
    have hfails := exec_firstCommand_of_error hctx hstart
    constructor
    · intro e' he'
      exact (exec_hash_of_error M hstart).trans (hfails.symm.trans he')
    · intro s1 s2 s3 r hs1 hok
      cases hs1.symm.trans hfails
      simp [State.withError] at hok
  | ok r =>
    have hstarts := exec_firstCommand_of_ok hctx hstart
    constructor
    · intro e he
      have hsame := congrArg State.returned (Host.Outcome.next.inj (hstarts.symm.trans he))
      simp [State.withError] at hsame
    · intro s1 s2 s3 res hs1 _ hupdate hfinal hres
      cases hs1.symm.trans hstarts
      have hdigest := List.append_cancel_left (hres.symm.trans (final_result_of_start M hctx hstart hupdate hfinal))
      exact ⟨_, exec_hash_of_ok M hstart, congrArg (s.returned ++ ·) hdigest.symm⟩

end Sys2Proof.Machine
end

section
/-! PROOFS of the exceptions family (60_exceptions.md): which operands raise which error, what every command changes in
the engine and what it answers, as one equation, and what follows from it for errors and for commands on different
contexts. -/

namespace Sys2Proof
open Machine

/-! ### Which operands raise which error (R131 to R135) -/

section
variable {i : Instr} {s : State}

theorem badContext_iff : i.badContext s = true ↔ ∃ k, i.names = some k ∧ s.ctx.length ≤ k := by
  unfold Instr.badContext
  cases i.names <;> simp

theorem badArgument_iff : i.badArgument = true ↔
    ∃ n kl input outp key, i = .hash n kl input outp key ∧ (input = none ∨ outp = false) := by
  cases i with
  | init | initKey | update | final => simp [Instr.badArgument]
  | hash n kl input outp key =>
    have hflag : (Instr.hash n kl input outp key).badArgument = true ↔ input = none ∨ outp = false := by
      simp [Instr.badArgument]
    rw [hflag]
    constructor
    · exact fun h => ⟨n, kl, input, outp, key, rfl, h⟩
    · rintro ⟨_, _, _, _, _, ⟨⟩, h⟩
      exact h

theorem notReady_iff {ctx : Fin 16} :
    notReady s ctx = true ↔ ∃ c, s.ctx[ctx.val]? = some c ∧ c.phase ≠ .ready := by
  unfold notReady
  cases s.ctx[ctx.val]? <;> simp

theorem badState_iff : i.badState s = true ↔
    ∃ ctx c, s.ctx[ctx.val]? = some c ∧ c.phase ≠ .ready ∧ ((∃ x, i = .update ctx x) ∨ (∃ n, i = .final ctx n)) := by
  cases i <;> simp [Instr.badState, notReady_iff]

theorem badDigestLength_iff {n : Fin 256} : badDigestLength n = true ↔ n.val = 0 ∨ 32 < n.val := by
  simp [badDigestLength]

theorem badLength_iff : i.badLength = true ↔
    (∃ ctx n, i = .init ctx n ∧ (n.val = 0 ∨ 32 < n.val)) ∨
    (∃ ctx n kl key, i = .initKey ctx n kl key ∧ (n.val = 0 ∨ 32 < n.val)) ∨
    (∃ ctx n, i = .final ctx n ∧ 32 < n.val) ∨
    (∃ n kl input outp key, i = .hash n kl input outp key ∧ (n.val = 0 ∨ 32 < n.val)) := by
  cases i <;> simp [Instr.badLength, badDigestLength_iff]

theorem keySupplied_some_iff {kl : Fin 256} {k : Bytes} :
    keySupplied kl (some k) = true ↔ kl.val = 0 ∨ 32 < kl.val ∨ kl.val ≤ k.length := by
  simp [keySupplied, or_assoc]

theorem badKey_iff : i.badKey = true ↔
    (∃ ctx n kl key, i = .initKey ctx n kl key ∧
      (key = none ∨ kl.val = 0 ∨ 32 < kl.val ∨ ∃ k, key = some k ∧ k.length < kl.val)) ∨
    (∃ n kl input outp k, i = .hash n kl input outp (some k) ∧ (32 < kl.val ∨ k.length < kl.val)) := by
  cases i with
  | init | update | final => simp [Instr.badKey]
  | initKey ctx n kl key =>
    cases key with
    | none => simp [Instr.badKey]
    | some k => simp [Instr.badKey, ← Bool.not_eq_true, keySupplied_some_iff]; omega
  | hash n kl input outp key =>
    cases key with
    | none => simp [Instr.badKey, keySupplied]
    | some k => simp [Instr.badKey, ← Bool.not_eq_true, keySupplied_some_iff]; omega

/-- The first error is one that applies. -/
theorem applies_of_firstError {e : CmdError} (h : i.firstError s = some e) :
    match e with
    | .invalidCommand => i.badContext s = true
    | .invalidArgument => i.badArgument = true
    | .invalidState => i.badState s = true
    | .invalidDigestLength => i.badLength = true
    | .invalidKey => i.badKey = true := by
  unfold Instr.firstError at h
  split_ifs at h <;> cases h <;> assumption

/-! ### What the checks leave when they pass -/

theorem lt_length_of_not_badContext {k : Nat} (h : ¬ i.badContext s = true) (hk : i.names = some k) :
    k < s.ctx.length :=
  Nat.lt_of_not_le fun hle => h (badContext_iff.2 ⟨k, hk, hle⟩)

/-- UPDATE and FINAL find a READY context. -/
theorem ready_of_not_notReady {ctx : Fin 16} (hctx : ctx.val < s.ctx.length) (h : ¬ notReady s ctx = true) :
    ∃ c, s.ctx[ctx.val]? = some c ∧ c.phase = .ready :=
  ⟨_, List.getElem?_eq_getElem hctx, Decidable.not_not.1 fun hp =>
    h (notReady_iff.2 ⟨_, List.getElem?_eq_getElem hctx, hp⟩)⟩

theorem digestLength_of_not_bad {n : Fin 256} (h : ¬ badDigestLength n = true) : 1 ≤ n.val ∧ n.val ≤ 32 := by
  rw [badDigestLength_iff] at h
  omega

/-- HASH has its input and its output. -/
theorem eq_of_not_badArgument {n kl : Fin 256} {input key : Option Bytes} {outp : Bool}
    (h : ¬ (Instr.hash n kl input outp key).badArgument = true) : ∃ M, input = some M ∧ outp = true := by
  cases input <;> cases outp <;> simp [Instr.badArgument] at h ⊢

/-! ### Each error, when none before it in the order of R136 applies -/

theorem exec_of_badContext (h : i.badContext s = true) : exec i s = .next (s.withError .invalidCommand) := by
  obtain ⟨k, hk, hle⟩ := badContext_iff.1 h
  have hnone : s.ctx[k]? = none := List.getElem?_eq_none hle
  cases i with
  | hash => cases hk
  | init | update | final => cases hk; exact onContext_none _ hnone
  | initKey ctx n kl key =>
    cases hk
    simp only [exec, execInitKey, hnone]
    rfl

theorem exec_of_badArgument (h : i.badArgument = true) : exec i s = .next (s.withError .invalidArgument) := by
  obtain ⟨n, kl, input, outp, key, rfl, habsent⟩ := badArgument_iff.1 h
  have hread : readInput input outp = .error .invalidArgument := by
    obtain rfl | rfl := habsent
    · rfl
    · cases input <;> rfl
  simp only [exec, execHash, hread]
  rfl

theorem exec_of_badState (h : i.badState s = true) : exec i s = .next (s.withError .invalidState) := by
  obtain ⟨ctx, c, hc, hphase, ⟨x, rfl⟩ | ⟨n, rfl⟩⟩ := badState_iff.1 h
  · exact execUpdate_notReady x hc hphase
  · exact exec_final_notReady hc hphase

theorem hashStart_badLength {n kl : Nat} (key : Option Bytes) (h : n = 0 ∨ 32 < n) :
    hashStart s n kl key = .error .invalidDigestLength := by
  unfold hashStart
  split
  · rw [initContext_error _ _ h]
    rfl
  · exact initKeyContext_badLength _ _ _ _ _ h

theorem exec_of_badLength (hcontext : ¬ i.badContext s = true) (hargument : ¬ i.badArgument = true)
    (hstate : ¬ i.badState s = true) (h : i.badLength = true) :
    exec i s = .next (s.withError .invalidDigestLength) := by
  have hctx {k : Nat} : i.names = some k → k < s.ctx.length := lt_length_of_not_badContext hcontext
  obtain ⟨ctx, n, rfl, hn⟩ | ⟨ctx, n, kl, key, rfl, hn⟩ | ⟨ctx, n, rfl, hn⟩ | ⟨n, kl, input, outp, key, rfl, hn⟩ :=
    badLength_iff.1 h
  · exact exec_init_badLength (hctx rfl) hn
  · exact exec_initKey_of_error (hctx rfl) (initKeyContext_badLength _ _ _ _ key hn)
  · obtain ⟨c, hc, hphase⟩ := ready_of_not_notReady (hctx rfl) hstate
    exact exec_final_badLength hc hphase hn
  · obtain ⟨M, rfl, rfl⟩ := eq_of_not_badArgument hargument
    exact exec_hash_of_error M (hashStart_badLength key hn)

/-- The two ways a key operand fails INIT_KEY's body: refused outright, or too short (log entry 8). -/
theorem initKeyContext_keyError (c : Context) (ks : Vector Byte 64) {n kl : Nat} {key : Option Bytes}
    (hn : 1 ≤ n ∧ n ≤ 32) (h : key = none ∨ kl = 0 ∨ 32 < kl ∨ ∃ k, key = some k ∧ k.length < kl) :
    initKeyContext c ks n kl key = .error .invalidKey := by
  by_cases hbad : key = none ∨ kl = 0 ∨ 32 < kl
  · exact initKeyContext_badKey c ks n kl key hn hbad
  · obtain ⟨k, rfl, hshort⟩ : ∃ k, key = some k ∧ k.length < kl := by tauto
    exact initKeyContext_shortKey c ks n kl k hn (by omega) hshort

theorem exec_of_badKey (hcontext : ¬ i.badContext s = true) (hargument : ¬ i.badArgument = true)
    (hlength : ¬ i.badLength = true) (h : i.badKey = true) : exec i s = .next (s.withError .invalidKey) := by
  obtain ⟨ctx, n, kl, key, rfl, hkey⟩ | ⟨n, kl, input, outp, k, rfl, hkey⟩ := badKey_iff.1 h
  · exact exec_initKey_of_error (lt_length_of_not_badContext hcontext rfl)
      (initKeyContext_keyError _ _ (digestLength_of_not_bad hlength) hkey)
  · obtain ⟨M, rfl, rfl⟩ := eq_of_not_badArgument hargument
    have hkl : kl.val ≠ 0 := by omega
    refine exec_hash_of_error M ((hashStart_keyed hkl).trans ?_)
    exact initKeyContext_keyError _ _ (digestLength_of_not_bad hlength)
      (.inr (.inr (hkey.imp_right fun hshort => ⟨k, rfl, hshort⟩)))

end

/-! ### What a command changes -/

/-- What a command does to the engine, as data: the context it leaves in the place it names, what it leaves in SCR,
whether it erases KSTAGE, and its result. -/
structure Change where
  context : Option Context := none
  scr : Option Context := none
  erases : Bool := false
  result : Result

/-- The context file with `d`, if any, in the place `k`, if any. -/
def putContext (k : Option Nat) (d : Option Context) (l : List Context) : List Context :=
  d.elim l fun d => k.elim l fun k => l.set k d

/-- The state after a change by a command that names `k`. -/
def Change.apply (δ : Change) (k : Option Nat) (s : State) : State :=
  { s with
    ctx := putContext k δ.context s.ctx
    scr := δ.scr.getD s.scr
    kstage := if δ.erases then Vector.replicate 64 0 else s.kstage }.reply δ.result

/-- The context `ctx` names; asked for only where the engine has it. -/
def namedContext (s : State) (ctx : Fin 16) : Context := s.ctx[ctx.val]?.getD Context.reset

/-- The session HASH starts in SCR (R120). -/
def hashSession (n kl : Nat) (key : Option Bytes) : Context :=
  if effectiveKeyLength kl key = 0 then freshContext n else keyedContext n kl (key.getD [])

/-- What a command changes when no error applies to it. -/
def Instr.success (s : State) : Instr → Change
  | .init _ n => { context := some (freshContext n.val), result := ⟨.ok, []⟩ }
  | .initKey _ n kl key =>
    { context := some (keyedContext n.val kl.val (key.getD [])), erases := true, result := ⟨.ok, []⟩ }
  | .update ctx x => { context := some (absorb (namedContext s ctx) x), result := ⟨.ok, []⟩ }
  | .final ctx n =>
    let c := finished (namedContext s ctx)
    { context := some c, result := ⟨.ok, (digestBytes c.h).take n.val⟩ }
  | .hash n kl input _ key =>
    let c := finished (absorb (hashSession n.val kl.val key) (input.getD []))
    { scr := some c, erases := effectiveKeyLength kl.val key != 0, result := ⟨.ok, (digestBytes c.h).take n.val⟩ }

/-- What a command changes: nothing when an error applies to it. -/
def Instr.change (s : State) (i : Instr) : Change :=
  match i.firstError s with
  | some e => { result := ⟨.error e, []⟩ }
  | none => i.success s

section
variable {i : Instr} {s : State}

theorem namedContext_of_getElem? {ctx : Fin 16} {c : Context} (h : s.ctx[ctx.val]? = some c) :
    namedContext s ctx = c := by
  rw [namedContext, h]
  rfl

theorem hashStart_ok {n kl : Nat} {key : Option Bytes} (hn : 1 ≤ n ∧ n ≤ 32)
    (hkey : ∀ k, key = some k → kl ≤ 32 ∧ kl ≤ k.length) :
    hashStart s n kl key = .ok ⟨hashSession n kl key,
      if effectiveKeyLength kl key != 0 then Vector.replicate 64 0 else s.kstage⟩ := by
  unfold hashStart hashSession
  split
  case isTrue h =>
    rw [initContext_ok _ _ hn.1 hn.2, h]
    rfl
  case isFalse h =>
    cases key with
    | none => exact absurd rfl h
    | some k =>
      obtain ⟨h32, hlen⟩ := hkey k rfl
      have h0 : kl ≠ 0 := h
      rw [effectiveKeyLength_some, initKeyContext_ok _ _ _ _ k hn (by omega) hlen]
      simp [h0]

theorem exec_of_no_error (hcontext : ¬ i.badContext s = true) (hargument : ¬ i.badArgument = true)
    (hstate : ¬ i.badState s = true) (hlength : ¬ i.badLength = true) (hkey : ¬ i.badKey = true) :
    exec i s = .next ((i.success s).apply i.names s) := by
  have hctx {k : Nat} : i.names = some k → k < s.ctx.length := lt_length_of_not_badContext hcontext
  cases i with
  | init ctx n => exact exec_init_ok (hctx rfl) (digestLength_of_not_bad hlength)
  | initKey ctx n kl key =>
    cases key with
    | none => exact absurd (badKey_iff.2 (.inl ⟨ctx, n, kl, none, rfl, .inl rfl⟩)) hkey
    | some k =>
      have hk : ¬ (kl.val = 0 ∨ 32 < kl.val ∨ k.length < kl.val) := by simpa [badKey_iff] using hkey
      exact exec_initKey_of_ok (hctx rfl)
        (initKeyContext_ok _ _ _ _ k (digestLength_of_not_bad hlength) (by omega) (by omega))
  | update ctx x =>
    obtain ⟨c, hc, hphase⟩ := ready_of_not_notReady (hctx rfl) hstate
    rw [Instr.success, namedContext_of_getElem? hc]
    exact execUpdate_ready x hc hphase
  | final ctx n =>
    obtain ⟨c, hc, hphase⟩ := ready_of_not_notReady (hctx rfl) hstate
    have hn : n.val ≤ 32 := by simpa [badLength_iff] using hlength
    rw [Instr.success, namedContext_of_getElem? hc]
    exact exec_final_ready hc hphase hn
  | hash n kl input outp key =>
    obtain ⟨M, rfl, rfl⟩ := eq_of_not_badArgument hargument
    have hk : ∀ k, key = some k → kl.val ≤ 32 ∧ kl.val ≤ k.length := by
      rintro k rfl
      have hfits : ¬ (32 < kl.val ∨ k.length < kl.val) := by simpa [badKey_iff] using hkey
      omega
    rw [exec_hash_of_ok M (hashStart_ok (digestLength_of_not_bad hlength) hk)]
    rfl

/-- Every command, in every state, makes its change and nothing else. -/
theorem exec_eq (i : Instr) (s : State) : exec i s = .next ((i.change s).apply i.names s) := by
  unfold Instr.change Instr.firstError
  split_ifs with hcontext hargument hstate hlength hkey
  · exact exec_of_badContext hcontext
  · exact exec_of_badArgument hargument
  · exact exec_of_badState hstate
  · exact exec_of_badLength hcontext hargument hstate hlength
  · exact exec_of_badKey hcontext hargument hlength hkey
  · exact exec_of_no_error hcontext hargument hstate hlength hkey

theorem exec_of_firstError {e : CmdError} (h : i.firstError s = some e) : exec i s = .next (s.withError e) := by
  rw [exec_eq, Instr.change, h]
  rfl

theorem exec_of_firstError_none (h : i.firstError s = none) :
    exec i s = .next ((i.success s).apply i.names s) := by
  rw [exec_eq, Instr.change, h]

theorem success_result (i : Instr) (s : State) : (i.success s).result = ⟨.ok, (i.success s).result.out⟩ := by
  cases i <;> rfl

theorem apply_returned (δ : Change) (k : Option Nat) (s : State) :
    (δ.apply k s).returned = s.returned ++ [δ.result] := rfl

end

/-! ### Errors (R131 to R137) -/

/-- Settles O29. -/
theorem everyCommandReportsItsFirstError : Obligations.EveryCommandReportsItsFirstError := by
  refine fun s i => ⟨fun e => exec_of_firstError, fun h =>
    ⟨_, (i.success s).result.out, exec_of_firstError_none h, ?_⟩⟩
  rw [apply_returned, ← success_result]

/-- An error result is the first error that applies. -/
theorem firstError_of_exec_error {i : Instr} {s t : State} {e : CmdError} {out : Bytes} (h : exec i s = .next t)
    (hret : t.returned = s.returned ++ [⟨.error e, out⟩]) : i.firstError s = some e := by
  obtain ⟨herror, hok⟩ := everyCommandReportsItsFirstError s i
  cases hfirst : i.firstError s with
  | none =>
    obtain ⟨t', out', h', hret'⟩ := hok hfirst
    cases h.symm.trans h'
    cases List.append_cancel_left (hret.symm.trans hret')
  | some e' =>
    cases h.symm.trans (herror e' hfirst)
    cases List.append_cancel_left hret
    rfl

/-- Settles O30: the error is the first that applies, and an error applies to the operands listed for it. -/
theorem eachErrorHasItsCommands : Obligations.EachErrorHasItsCommands := by
  intro i s t e out h hret
  have happlies := applies_of_firstError (firstError_of_exec_error h hret)
  cases e with
  | invalidDigestLength => exact badLength_iff.1 happlies
  | invalidKey => exact badKey_iff.1 happlies
  | invalidArgument => exact badArgument_iff.1 happlies
  | invalidState => exact badState_iff.1 happlies
  | invalidCommand => exact badContext_iff.1 happlies

/-- Settles O32. -/
theorem errorChangesNothing : Obligations.ErrorChangesNothing := by
  intro i s t e out h hret
  exact Host.Outcome.next.inj (h.symm.trans (exec_of_firstError (firstError_of_exec_error h hret)))

/-! ### The checks look at no operand byte (R137, D28) -/

section
variable (i : Instr) (s : State)

theorem badContext_blank : i.blank.badContext s = i.badContext s := by
  cases i <;> rfl

theorem badArgument_blank : i.blank.badArgument = i.badArgument := by
  cases i with
  | hash n kl input outp key => cases input <;> rfl
  | init | initKey | update | final => rfl

theorem badState_blank : i.blank.badState s = i.badState s := by
  cases i <;> rfl

theorem badLength_blank : i.blank.badLength = i.badLength := by
  cases i <;> rfl

theorem keySupplied_blanked (kl : Fin 256) (key : Option Bytes) :
    keySupplied kl (key.map blanked) = keySupplied kl key := by
  cases key with
  | none => rfl
  | some k => simp only [Option.map_some, keySupplied, blanked, zeros_length]

theorem badKey_blank : i.blank.badKey = i.badKey := by
  cases i with
  | initKey | hash => simp only [Instr.blank, Instr.badKey, keySupplied_blanked, Option.isNone_map, Option.isSome_map]
  | init | update | final => rfl

theorem firstError_blank : i.blank.firstError s = i.firstError s := by
  simp only [Instr.firstError, badContext_blank, badArgument_blank, badState_blank, badLength_blank, badKey_blank]

end

/-- Settles O31: the first error is that of the blanked command. -/
theorem errorsReadNoOperandByte : Obligations.ErrorsReadNoOperandByte := by
  intro i j s e hblank h
  refine exec_of_firstError ?_
  calc j.firstError s = j.blank.firstError s := (firstError_blank j s).symm
    _ = i.blank.firstError s := by rw [hblank]
    _ = i.firstError s := firstError_blank i s
    _ = some e := firstError_of_exec_error h rfl

/-! ### Commands on different contexts (R146) -/

/-- Of the state a command reads, for what it changes, the context it names and no more: no other context, SCR or
KSTAGE. -/
theorem change_congr {i : Instr} {s s' : State} (h : ∀ k, i.names = some k → s'.ctx[k]? = s.ctx[k]?) :
    i.change s' = i.change s := by
  have hcontext : i.badContext s' = i.badContext s := by
    have hlen : ∀ k, i.names = some k → (s'.ctx.length ≤ k ↔ s.ctx.length ≤ k) := fun k hk => by
      rw [← List.getElem?_eq_none_iff, h k hk, List.getElem?_eq_none_iff]
    rw [Bool.eq_iff_iff, badContext_iff, badContext_iff]
    exact exists_congr fun k => and_congr_right (hlen k)
  have hstate : i.badState s' = i.badState s := by
    cases i with
    | update | final => simp only [Instr.badState, notReady, h _ rfl]
    | init | initKey | hash => rfl
  have hsuccess : i.success s' = i.success s := by
    cases i with
    | update | final => simp only [Instr.success, namedContext, h _ rfl]
    | init | initKey | hash => rfl
  simp only [Instr.change, Instr.firstError, hcontext, hstate, hsuccess]

/-- A command that names a context leaves SCR alone. -/
theorem change_scr {i : Instr} {a : Nat} (s : State) (h : i.names = some a) : (i.change s).scr = none := by
  unfold Instr.change
  cases i.firstError s with
  | some e => rfl
  | none =>
    cases i with
    | init | initKey | update | final => rfl
    | hash => cases h

theorem putContext_comm {a b : Option Nat} (h : ∀ k, a = some k → b ≠ some k) (c d : Option Context)
    (l : List Context) : putContext b d (putContext a c l) = putContext a c (putContext b d l) := by
  match c, d, a, b, h with
  | none, _, _, _, _ => rfl
  | some _, none, _, _, _ => rfl
  | some _, some _, none, _, _ => rfl
  | some _, some _, some _, none, _ => rfl
  | some c, some d, some k, some k', h => exact List.set_comm c d fun hk => h k rfl (congrArg some hk.symm)

/-- Running `j` between leaves what `i` changes as it is, when `j` does not name `i`'s context. -/
theorem change_apply_of_names_ne {i j : Instr} (s : State) (h : ∀ k, i.names = some k → j.names ≠ some k) :
    i.change ((j.change s).apply j.names s) = i.change s := by
  obtain ⟨-, -, hother, -⟩ := commandTouchesOnlyWhatItNames j s _ (exec_eq j s)
  exact change_congr fun k hk => hother k (h k hk)

/-- Settles O36: what each changes is the same in either order, and the two changes commute. -/
theorem commandsToDifferentContextsCommute : Obligations.CommandsToDifferentContextsCommute := by
  intro s i j a hi hj
  have hij : ∀ k, i.names = some k → j.names ≠ some k := by
    intro k hk
    cases hi.symm.trans hk
    exact hj
  have hji : ∀ k, j.names = some k → i.names ≠ some k := fun k hk hik => hij k hik hk
  have hjAfter := exec_eq j ((i.change s).apply i.names s)
  have hiAfter := exec_eq i ((j.change s).apply j.names s)
  rw [change_apply_of_names_ne s hji] at hjAfter
  rw [change_apply_of_names_ne s hij] at hiAfter
  refine ⟨(i.change s).result, (j.change s).result, _, _, _, _, exec_eq i s, hjAfter, exec_eq j s, hiAfter,
    ?_, ?_, ?_, ?_, ?_⟩
  · exact putContext_comm hij _ _ s.ctx
  · simp [Change.apply, change_scr s hi]
  · simp only [Change.apply, State.reply_kstage]
    split <;> split <;> rfl
  · exact List.append_assoc _ _ _
  · exact List.append_assoc _ _ _

end Sys2Proof
end

section
/-! PROOFS of the reset and hazards family (70_reset_and_hazards.md): what the reset event leaves, that every command
and every step completes, what a closed session refuses and still holds, and that results see of a state what `Alike`
compares and no more. -/

namespace Sys2Proof.Machine

/-! ### Reset (R150) -/

/-- Settles O7. -/
theorem resetEventStartsAfresh : Obligations.ResetEventStartsAfresh := by
  intro s rest hpending
  refine ⟨_, step_of_pending hpending, List.length_replicate, fun c hc => ?_, rfl, replicate_zero_erased, rfl, rfl⟩
  rw [List.eq_of_mem_replicate hc]
  rfl

/-! ### Every command and every step completes (R163, R167) -/

/-- A command word from the host completes, reserved or not. -/
theorem runCommand_completes (c : Command) (s : State) : ∃ t, runCommand c s = .next t := by
  unfold runCommand
  cases decode s.ctx.length c with
  | ok i => exact ⟨_, exec_eq i s⟩
  | error r => exact ⟨_, rfl⟩

/-- Settles O9. -/
theorem everyCommandReturnsOneResult : Obligations.EveryCommandReturnsOneResult := by
  refine ⟨fun i s => ?_, fun s => ?_⟩
  · have hexec := exec_eq i s
    obtain ⟨hlength, hpending, -⟩ := commandTouchesOnlyWhatItNames i s _ hexec
    exact ⟨_, _, hexec, apply_returned _ _ s, hpending, hlength⟩
  · cases hpending : s.pending with
    | nil => exact ⟨s, by rw [step, hpending]⟩
    | cons e rest =>
      rw [step_of_pending hpending]
      cases e with
      | command c => exact runCommand_completes c _
      | reset => exact ⟨_, rfl⟩

/-! ### After the session is closed (R154, R160) -/

/-- A FINAL that answered OK left its context FINALIZED. -/
theorem finalized_of_final_ok {s t : State} {ctx : Fin 16} {n : Fin 256} {out : Bytes}
    (h : exec (.final ctx n) s = .next t) (hret : t.returned = s.returned ++ [⟨.ok, out⟩]) :
    ∃ c, t.ctx[ctx.val]? = some c ∧ c.phase = .finalized := by
  cases exec_effect h with
  | error e => cases List.append_cancel_left hret
  | final _ _ c hc _ _ => exact ⟨finished c, List.getElem?_set_self (List.getElem?_eq_some_iff.1 hc).1, rfl⟩

/-- Settles O22. -/
theorem secondFinalIsRefused : Obligations.SecondFinalIsRefused := by
  intro s t ctx n m out x h hret
  obtain ⟨c, hc, hphase⟩ := finalized_of_final_ok h hret
  have hclosed : c.phase ≠ .ready := by rw [hphase]; decide
  exact ⟨exec_final_notReady hc hclosed, execUpdate_notReady x hc hclosed⟩

/-- FINAL right after INIT_KEY pads behind the key block and leaves it where it was. -/
theorem getElem_finished_keyedContext_buf (n : Nat) {kl : Nat} {k : Bytes} (hkl : kl ≤ 64) (hk : kl ≤ k.length)
    (i : Fin 128) (hi : i.val < kl) : some (finished (keyedContext n kl k)).buf[i] = k[i.val]? := by
  have hb : (keyedContext n kl k).buflen = 64 := rfl
  rw [finished_of_le hb.le, List.getElem?_eq_getElem (by omega)]
  simp only [closedContext, paddedBuf, keyedContext, Fin.getElem_fin, Vector.getElem_ofFn]
  rw [if_pos (by omega), if_pos hi, List.getElem?_eq_getElem (by omega), Option.getD_some]

/-- Settles O28: the key block is one block, so FINAL shifts nothing down onto it. -/
theorem keyStaysInBufAfterEmptySession : Obligations.KeyStaysInBufAfterEmptySession := by
  intro s t u ctx n kl m k hn1 hn32 hkl1 hkl32 hk hm hctx hinit hfinal
  obtain ⟨hok, -⟩ := initKeyBuffersPaddedKey s ctx n kl (some k) hctx
  cases hinit.symm.trans (hok k rfl hn1 hn32 hkl1 hkl32 hk)
  cases hfinal.symm.trans (exec_final_ready (List.getElem?_set_self hctx) rfl hm)
  exact ⟨_, List.getElem?_set_self (by rwa [List.length_set]), rfl, rfl,
    getElem_finished_keyedContext_buf n.val (by omega) hk⟩

/-! ### A short key (R168) -/

/-- Settles O14: both commands make the check of INIT_KEY's body. -/
theorem shortKeyIsAnError : Obligations.ShortKeyIsAnError := by
  intro s n kl k hn1 hn32 hkl1 hkl32 hshort
  have hbody (c : Context) := initKeyContext_shortKey c s.kstage n.val kl.val k ⟨hn1, hn32⟩ ⟨hkl1, hkl32⟩ hshort
  exact ⟨fun ctx hctx => exec_initKey_of_error hctx (hbody _),
    fun M => exec_hash_of_error M ((hashStart_keyed (by omega)).trans (hbody s.scr))⟩

/-! ### What results see of a buffer (R14, R151) -/

/-- Two buffers with the same first `b` bytes. -/
def AgreeBelow (b : Nat) (S U : Vector Byte 128) : Prop := ∀ i (hi : i < 128), i < b → S[i] = U[i]

section
variable {b : Nat} {S U : Vector Byte 128}

theorem AgreeBelow.eq (h : AgreeBelow b S U) (hb : 128 ≤ b) : S = U :=
  Vector.ext fun i hi => h i hi (by omega)

/-- Writing the same bytes behind the agreeing ones makes more of them agree. -/
theorem AgreeBelow.writeBytes (h : AgreeBelow b S U) (x : Bytes) :
    AgreeBelow (b + x.length) (writeBytes S b x) (writeBytes U b x) := by
  intro i hi hlt
  by_cases hold : i < b
  · rw [getElem_writeBytes_out _ _ _ _ hi (.inl hold), getElem_writeBytes_out _ _ _ _ hi (.inl hold), h i hi hold]
  · rw [getElem_writeBytes_in _ _ _ _ hi (by omega) (by omega), getElem_writeBytes_in _ _ _ _ hi (by omega) (by omega)]

theorem AgreeBelow.paddedBuf_eq (h : AgreeBelow b S U) : paddedBuf S b = paddedBuf U b := by
  apply Vector.ext
  intro i hi
  simp only [paddedBuf, Vector.getElem_ofFn, Fin.getElem_fin]
  exact if_ctx_congr Iff.rfl (h i hi) fun _ => rfl

theorem AgreeBelow.firstBlock_eq (h : AgreeBelow b S U) (hb : 64 ≤ b) : firstBlock S = firstBlock U := by
  apply Vector.ext
  intro i hi
  rw [getElem_firstBlock _ _ hi, getElem_firstBlock _ _ hi, h i (by omega) (by omega)]

end

/-! ### What results see of a context (R14, R28, R151) -/

theorem Context.Alike.refl (c : Context) : c.Alike c :=
  ⟨rfl, fun _ => ⟨rfl, rfl, rfl, rfl, rfl, rfl, rfl, fun _ _ => rfl⟩⟩

/-- Contexts alike in a PHASE other than READY need nothing more than that PHASE. -/
theorem Context.alike_of_not_ready {c d : Context} (hphase : c.phase = d.phase) (hc : c.phase ≠ .ready) : c.Alike d :=
  ⟨hphase, fun hready => absurd hready hc⟩

/-- A buffer with the same valid bytes makes an alike context. -/
theorem alike_withBuf {c : Context} {B : Vector Byte 128} (h : AgreeBelow c.buflen c.buf B) :
    c.Alike { c with buf := B } :=
  ⟨rfl, fun _ => ⟨rfl, rfl, rfl, rfl, rfl, rfl, rfl, fun i hi => h i.val i.isLt hi⟩⟩

/-- READY contexts that are alike differ in stale bytes of `buf` only. -/
theorem Context.Alike.eq_withBuf {c d : Context} (h : c.Alike d) (hready : c.phase = .ready) :
    AgreeBelow c.buflen c.buf d.buf ∧ d = { c with buf := d.buf } := by
  obtain ⟨hphase, hfields⟩ := h
  obtain ⟨hh, ht0, ht1, hf0, hf1, hnode, hb, hvalid⟩ := hfields hready
  refine ⟨fun i hi hlt => hvalid ⟨i, hi⟩ hlt, ?_⟩
  rw [hphase, hh, ht0, ht1, hf0, hf1, hnode, hb]

section
variable {c : Context} {B : Vector Byte 128} (h : AgreeBelow c.buflen c.buf B)
include h

/-- ABSORB into a buffer with other stale bytes: what fits is copied in behind the valid bytes, and what overflows
fills the buffer, so that no stale byte is left to compress or to shift down. -/
theorem absorb_withBuf_alike (x : Bytes) : (absorb c x).Alike (absorb { c with buf := B } x) := by
  by_cases ho : 128 - c.buflen < x.length
  · have hfill : writeBytes c.buf c.buflen (x.take (128 - c.buflen)) =
        writeBytes B c.buflen (x.take (128 - c.buflen)) :=
      (h.writeBytes _).eq (by rw [List.length_take]; omega)
    have hblock : absorbBlock c (x.take (128 - c.buflen)) =
        absorbBlock { c with buf := B } (x.take (128 - c.buflen)) := by
      unfold absorbBlock
      rw [hfill]
    rw [absorb_overflow c x ho, absorb_overflow { c with buf := B } x ho, hblock]
    exact .refl _
  · rw [absorb_fits c x (by omega), absorb_fits { c with buf := B } x (Nat.le_of_not_lt ho)]
    split
    · exact alike_withBuf h
    · exact alike_withBuf (c := absorbRest c x) (by
        rw [absorbRest_buflen, absorbRest_buf]
        exact h.writeBytes x)

theorem tailBlock_withBuf : tailBlock { c with buf := B } = tailBlock c := by
  apply Vector.ext
  intro i hi
  simp only [tailBlock, Vector.getElem_ofFn]
  exact if_ctx_congr Iff.rfl (fun hlt => (h (64 + i) (by omega) hlt).symm) fun _ => rfl

/-- FINAL overwrites every stale byte. -/
theorem finished_withBuf : finished { c with buf := B } = finished c := by
  by_cases hone : c.buflen ≤ 64
  · rw [finished_of_le hone, finished_of_le (c := { c with buf := B }) hone, h.paddedBuf_eq]
    rfl
  · by_cases hroom : c.buflen ≤ 128
    · have htwo : 64 < c.buflen := by omega
      rw [finished_of_lt htwo hroom, finished_of_lt (c := { c with buf := B }) htwo hroom, tailBlock_withBuf h,
        h.firstBlock_eq htwo.le]
      rfl
    · rw [← h.eq (by omega)]

end

theorem Context.Alike.absorb {c d : Context} (h : c.Alike d) (x : Bytes) : (absorb c x).Alike (absorb d x) := by
  by_cases hready : c.phase = .ready
  · obtain ⟨hbuf, hd⟩ := h.eq_withBuf hready
    rw [hd]
    exact absorb_withBuf_alike hbuf x
  · obtain ⟨hphase, -⟩ := h
    exact alike_of_not_ready (by rw [absorb_phase, absorb_phase, hphase]) (by rwa [absorb_phase])

theorem Context.Alike.finished_eq {c d : Context} (h : c.Alike d) (hready : c.phase = .ready) :
    finished c = finished d := by
  obtain ⟨hbuf, hd⟩ := h.eq_withBuf hready
  rw [hd, finished_withBuf hbuf]

/-! ### The context file -/

theorem forall₂_set {α β : Type} {R : α → β → Prop} {l : List α} {m : List β} (h : List.Forall₂ R l m) (k : Nat)
    {a : α} {b : β} (hab : R a b) : List.Forall₂ R (l.set k a) (m.set k b) := by
  induction h generalizing k with
  | nil => exact .nil
  | cons hxy htail ih =>
    cases k with
    | zero => exact .cons hab htail
    | succ k => exact .cons hxy (ih k)

theorem putContext_alike {l m : List Context} {c d : Option Context} (h : List.Forall₂ Context.Alike l m)
    (hcd : Option.Rel Context.Alike c d) (k : Option Nat) :
    List.Forall₂ Context.Alike (putContext k c l) (putContext k d m) := by
  cases hcd with
  | none => exact h
  | some hcd =>
    cases k with
    | none => exact h
    | some k => exact forall₂_set h k hcd

/-! ### What results see of a state (R122, R151) -/

/-- FINAL without an error finds a READY context. -/
theorem ready_of_final_firstError_none {s : State} {ctx : Fin 16} {n : Fin 256}
    (h : (Instr.final ctx n).firstError s = none) : ∃ c, s.ctx[ctx.val]? = some c ∧ c.phase = .ready := by
  unfold Instr.firstError at h
  split_ifs at h with hcontext _ hstate
  exact ready_of_not_notReady (lt_length_of_not_badContext hcontext rfl) hstate

section
variable {s s' : State}

theorem State.Alike.length_eq (h : s.Alike s') : s.ctx.length = s'.ctx.length := by
  obtain ⟨hctx, -⟩ := h
  exact hctx.length_eq

/-- What a command finds at the same place of alike states is alike. -/
theorem State.Alike.lookup (h : s.Alike s') (k : Nat) : (s.ctx[k]? = none ∧ s'.ctx[k]? = none) ∨
    ∃ c d, s.ctx[k]? = some c ∧ s'.ctx[k]? = some d ∧ c.Alike d := by
  have hlength := h.length_eq
  obtain ⟨hctx, -⟩ := h
  by_cases hk : k < s.ctx.length
  · have hk' : k < s'.ctx.length := hlength ▸ hk
    exact .inr ⟨_, _, List.getElem?_eq_getElem hk, List.getElem?_eq_getElem hk', hctx.get hk hk'⟩
  · exact .inl ⟨List.getElem?_eq_none (by omega), List.getElem?_eq_none (by omega)⟩

theorem State.Alike.namedContext (h : s.Alike s') (ctx : Fin 16) :
    (namedContext s ctx).Alike (namedContext s' ctx) := by
  obtain ⟨hs, hs'⟩ | ⟨c, d, hs, hs', halike⟩ := h.lookup ctx.val
  · rw [Sys2Proof.namedContext, Sys2Proof.namedContext, hs, hs']
    exact .refl _
  · rwa [namedContext_of_getElem? hs, namedContext_of_getElem? hs']

theorem State.Alike.notReady_eq (h : s.Alike s') (ctx : Fin 16) : notReady s ctx = notReady s' ctx := by
  obtain ⟨hs, hs'⟩ | ⟨c, d, hs, hs', hphase, -⟩ := h.lookup ctx.val
  · simp only [notReady, hs, hs']
  · simp only [notReady, hs, hs', hphase]

theorem State.Alike.firstError_eq (h : s.Alike s') (i : Instr) : i.firstError s = i.firstError s' := by
  have hcontext : i.badContext s = i.badContext s' := by
    unfold Instr.badContext
    rw [h.length_eq]
  have hstate : i.badState s = i.badState s' := by
    cases i with
    | update ctx _ | final ctx _ => exact h.notReady_eq ctx
    | init | initKey | hash => rfl
  rw [Instr.firstError, Instr.firstError, hcontext, hstate]

/-- Without an error, a command makes alike changes to alike states and answers the same. -/
theorem State.Alike.success (h : s.Alike s') {i : Instr} (hfirst : i.firstError s = none) :
    Option.Rel Context.Alike (i.success s).context (i.success s').context ∧
      (i.success s).result = (i.success s').result := by
  cases i with
  | init | initKey => exact ⟨.some (.refl _), rfl⟩
  | update ctx x => exact ⟨.some ((h.namedContext ctx).absorb x), rfl⟩
  | final ctx n =>
    obtain ⟨c, hc, hready⟩ := ready_of_final_firstError_none hfirst
    have hnamed := namedContext_of_getElem? hc
    have hfinished := (h.namedContext ctx).finished_eq (by rwa [hnamed])
    rw [Instr.success, Instr.success, hfinished]
    exact ⟨.some (.refl _), rfl⟩
  | hash => exact ⟨.none, rfl⟩

/-- Every command: alike changes, the same result (R151). -/
theorem State.Alike.change (h : s.Alike s') (i : Instr) :
    Option.Rel Context.Alike (i.change s).context (i.change s').context ∧
      (i.change s).result = (i.change s').result := by
  unfold Instr.change
  rw [← h.firstError_eq i]
  cases hfirst : i.firstError s with
  | some e => exact ⟨.none, rfl⟩
  | none => exact h.success hfirst

/-- Alike changes with the same result keep states alike, whatever they make of SCR and KSTAGE. -/
theorem State.Alike.apply (h : s.Alike s') {δ δ' : Change} (hcontext : Option.Rel Context.Alike δ.context δ'.context)
    (hresult : δ.result = δ'.result) (k : Option Nat) : (δ.apply k s).Alike (δ'.apply k s') := by
  obtain ⟨hctx, hpending, hreturned⟩ := h
  exact ⟨putContext_alike hctx hcontext k, hpending, by rw [apply_returned, apply_returned, hreturned, hresult]⟩

theorem State.Alike.exec (h : s.Alike s') (i : Instr) :
    ∃ t t', exec i s = .next t ∧ exec i s' = .next t' ∧ t.Alike t' := by
  obtain ⟨hcontext, hresult⟩ := h.change i
  exact ⟨_, _, exec_eq i s, exec_eq i s', h.apply hcontext hresult i.names⟩

theorem State.Alike.raise (h : s.Alike s') (e : CmdError) : (s.raise e).Alike (s'.raise e) := by
  obtain ⟨hctx, hpending, hreturned⟩ := h
  exact ⟨hctx, hpending, by rw [State.raise_returned, State.raise_returned, hreturned]⟩

/-- The decoder reads of a state the number of its contexts only. -/
theorem State.Alike.runCommand (h : s.Alike s') (c : Command) :
    ∃ t t', runCommand c s = .next t ∧ runCommand c s' = .next t' ∧ t.Alike t' := by
  unfold Machine.runCommand
  rw [← h.length_eq]
  cases decode s.ctx.length c with
  | ok i => exact h.exec i
  | error r => exact ⟨_, _, rfl, rfl, h.raise _⟩

theorem State.Alike.resetEvent (h : s.Alike s') : (resetEvent s).Alike (resetEvent s') := by
  have hlength := h.length_eq
  obtain ⟨-, hpending, -⟩ := h
  refine ⟨?_, hpending, rfl⟩
  rw [resetEvent_ctx, resetEvent_ctx, hlength]
  exact List.forall₂_same.2 fun c _ => .refl c

theorem State.Alike.takeEvent (h : s.Alike s') (e : HostEvent) :
    ∃ t t', takeEvent e s = .next t ∧ takeEvent e s' = .next t' ∧ t.Alike t' := by
  cases e with
  | command c => exact h.runCommand c
  | reset => exact ⟨_, _, rfl, rfl, h.resetEvent⟩

end

/-- Settles O37: the event taken is the same in both states, and taking it keeps them alike. -/
theorem resultsIgnoreUnspecifiedFields : Obligations.ResultsIgnoreUnspecifiedFields := by
  intro s s' h
  have halike := h
  obtain ⟨hctx, hpending, hreturned⟩ := h
  cases hs : s.pending with
  | nil =>
    have hs' : s'.pending = [] := hpending ▸ hs
    exact ⟨s, s', by rw [step, hs], by rw [step, hs'], halike⟩
  | cons e rest =>
    rw [step_of_pending hs, step_of_pending (hpending ▸ hs)]
    have htaken : State.Alike { s with pending := rest } { s' with pending := rest } := ⟨hctx, rfl, hreturned⟩
    exact htaken.takeEvent e

end Sys2Proof.Machine
end
